-- ==== Sys2Proof/Word.lean ====
section
/-! DEFINITION. The widths of the machine's values (spec/00_scope.md R5, R8, R9) as bit vectors, and nothing else. -/

namespace Sys2Proof

/-- The smallest addressable unit, 8 bits (20_memory.md R25). -/
abbrev Byte := BitVec 8

/-- A word is 16 bits (00_scope.md R9). -/
abbrev Word := BitVec 16

/-- A general-purpose register operand, `r32` (R5 `GPRW`, R10). -/
abbrev Dword := BitVec 32

/-- An MMX technology register (R5 `MMW`, R12). -/
abbrev Qword := BitVec 64

/-- An XMM register (R5 `XMMW`, R13). -/
abbrev Oword := BitVec 128

/-- A 3-bit register number selects one register of a file of eight (R11, D4). -/
abbrev RegNum := BitVec 3

end Sys2Proof
end

