-- ==== Sys2Proof/Config.lean ====
section
/-! DEFINITION. What an implementation fixes, the free values, and the timing data of the source. The launch parameters of
spec/00_scope.md R5 are fields of State, not constants here, so that a claim can quantify over them. -/

namespace Sys2Proof

/-- FREE VALUE: which of several applicable state-check exceptions is reported. The spec leaves the choice open: "a relation,
not a function" (60_exceptions.md R71, U4, D6). Applied to the counter `freeCount` and to whether #UD, #NM and #MF apply; no
body, so no proof can see a value. DESIGN CHOICE, log entry 6: the choice depends on these arguments and on nothing else, so it
is tied between states that agree in them (R71 says nothing of two states); different sets of exceptions are not tied. -/
opaque Config.exceptionChoice (freeCount : Nat) (ud nm mf : Bool) : Nat

/-- FREE VALUE: the bytes a read returns where other agents may write memory, "an unconstrained oracle, the two bytes
independently" (92_eei_decisions.md D14; 20_memory.md R32, R35). DESIGN CHOICE, log entry 18: applied to the counter `freeCount`
alone, so two reads at one value of the counter, in two states, are tied. -/
opaque Config.oracleByte : Nat → Byte

/-- What a memory byte that the state does not list reads as. DESIGN CHOICE (unsafe), log entry 17: the spec gives no memory
contents (R24); a launch with other contents lists them. -/
def Config.unlistedByte : Byte := 0#8

/-- One row of the source's latency table (70_reset_and_hazards.md R81). The three columns are for the processors whose CPUID
signature is 0F3n, 0F2n and 069n, in that order; the figures are text because the source gives no unit and does not explain
"1+1". -/
structure TimingRow where
  instruction : String
  latency : List String
  throughput : List String
  executionUnits : List String
deriving DecidableEq, Repr

/-- The source's timing figures (R81, C7). No rule of the model depends on them (R82). -/
def Config.timing : List TimingRow :=
  [⟨"PINSRW mm, r32, imm8", ["4", "4", "1"], ["1", "1", "1"], ["MMX_SHFT", "MMX_MISC"]⟩,
   ⟨"PINSRW xmm, r32, imm8", ["4", "4", "1+1"], ["2", "2", "2"], ["MMX_SHFT", "MMX_MISC"]⟩]

end Sys2Proof
end

