-- ==== Sys2Proof/Syntax.lean ====
section
/-! DEFINITION. The instructions as syntax: one constructor of `Instr` for each row of spec/opcode_table.json, over the
operand forms of spec/30_encoding.md. The syntax keeps which encoding of an operand was chosen (its displacement width, whether
there is a SIB byte), since the instruction's length depends on it (R46). -/

namespace Sys2Proof

/-- The address size used to decode a memory operand (00_scope.md R5, D9). -/
inductive AddrSize where
  | a16
  | a32
deriving DecidableEq, Repr

/-- The two destination register files: "64-bit operations" (no `66` byte) and "128-bit operations" (`66` byte), R39, R9. -/
inductive Form where
  | mmx
  | xmm
deriving DecidableEq, Repr

/-- The displacement of a based memory operand under addresses of `w` bits: none (`mod = 00`), an 8-bit one that is
sign-extended (`mod = 01`), or a full one (`mod = 10`); R43, R44. -/
inductive Disp (w : Nat) where
  | none
  | disp8 (b : Byte)
  | full (d : BitVec w)
deriving DecidableEq, Repr

/-- A memory operand under 32-bit addressing (R43). -/
inductive Mem32 where
  /-- `r32[base] + disp`, no SIB byte. -/
  | based (base : RegNum) (disp : Disp 32)
  /-- `disp32` alone (`mod = 00`, `rm = 101`). -/
  | absolute (d : Dword)
  /-- `r32[base] + index + disp`, by a SIB byte. -/
  | sib (scale : BitVec 2) (index base : RegNum) (disp : Disp 32)
  /-- `disp32 + index`, a SIB byte without a base (`mod = 00`, `base = 101`). -/
  | sibNoBase (scale : BitVec 2) (index : RegNum) (d : Dword)
deriving DecidableEq, Repr

/-- A memory operand under 16-bit addressing (R44). -/
inductive Mem16 where
  /-- The base expression of row `rm`, plus the displacement. -/
  | based (rm : RegNum) (disp : Disp 16)
  /-- `disp16` alone (`mod = 00`, `rm = 110`). -/
  | absolute (d : Word)
deriving DecidableEq, Repr

/-- The `m16` source operand, in one of the two address sizes. -/
inductive MemOperand where
  | m32 (m : Mem32)
  | m16 (m : Mem16)
deriving DecidableEq, Repr

/-- The instructions: the four rows of spec/opcode_table.json. `d` is the destination register number, `s` the source
general-purpose register, `m` the memory operand, `imm` the count operand (R41, R42, R45). -/
inductive Instr where
  /-- `PINSRW mm, r32, imm8` (40_pinsrw.md R52). -/
  | pinsrwMmR32 (d s : RegNum) (imm : Byte)
  /-- `PINSRW mm, m16, imm8` (R53). -/
  | pinsrwMmM16 (d : RegNum) (m : MemOperand) (imm : Byte)
  /-- `PINSRW xmm, r32, imm8` (R54). -/
  | pinsrwXmmR32 (d s : RegNum) (imm : Byte)
  /-- `PINSRW xmm, m16, imm8` (R55). -/
  | pinsrwXmmM16 (d : RegNum) (m : MemOperand) (imm : Byte)
deriving DecidableEq, Repr

end Sys2Proof
end

