-- ==== Sys2Proof/WellFormed.lean ====
section
/-! DEFINITION. Which instruction terms have an encoding (spec/30_encoding.md R43, R44): the encodings taken by the SIB byte
and by a lone displacement are not those of a based operand. Every register number, SIB field and count is valid (R48). -/

namespace Sys2Proof

/-- A 32-bit operand that R43's table has a row for: `rm = 100` calls for a SIB byte, and with `mod = 00` the numbers 101 of
`rm` and of the SIB base mean `disp32` alone. -/
def Mem32.wellFormed : Mem32 → Bool
  | .based base disp => base != 4#3 && (disp != .none || base != 5#3)
  | .absolute _ => true
  | .sib _ _ base disp => disp != .none || base != 5#3
  | .sibNoBase _ _ _ => true

/-- A 16-bit operand that R44's table has a row for: with `mod = 00`, `rm = 110` means `disp16` alone. -/
def Mem16.wellFormed : Mem16 → Bool
  | .based rm disp => disp != .none || rm != 6#3
  | .absolute _ => true

def MemOperand.wellFormed : MemOperand → Bool
  | .m32 m => m.wellFormed
  | .m16 m => m.wellFormed

/-- The instruction has an encoding. -/
def Instr.wellFormed : Instr → Bool
  | .pinsrwMmR32 _ _ _ => true
  | .pinsrwMmM16 _ m _ => m.wellFormed
  | .pinsrwXmmR32 _ _ _ => true
  | .pinsrwXmmM16 _ m _ => m.wellFormed

/-- The address size a memory operand is written in (R43 for 32, R44 for 16). -/
def MemOperand.addrSize : MemOperand → AddrSize
  | .m32 _ => .a32
  | .m16 _ => .a16

/-- The instruction is one of a machine whose address size is `a`: a memory operand is written in that size (D9). -/
def Instr.fits (a : AddrSize) : Instr → Bool
  | .pinsrwMmR32 _ _ _ => true
  | .pinsrwMmM16 _ m _ => m.addrSize == a
  | .pinsrwXmmR32 _ _ _ => true
  | .pinsrwXmmM16 _ m _ => m.addrSize == a

end Sys2Proof
end

