-- ==== Sys2Proof/Decode.lean ====
section
/-! DEFINITION. The decoder and the encoder (spec/30_encoding.md). The decoder is total on lists of bytes: it answers the
instruction and the bytes after it, or refuses by name everything that is not a byte sequence of R37 (R47, D10). -/

namespace Sys2Proof

/-- Why the decoder gives a byte sequence no meaning (R47). A refusal is the model's, not an exception of the hardware: each is
safe. -/
inductive DecodeRefusal where
  /-- The bytes end before the instruction does (R80; vector X6). -/
  | truncated
  /-- A segment-override byte (26, 2E, 36, 3E, 64 or 65) before the opcode. -/
  | segmentOverride (b : Byte)
  /-- The address-size byte 67 before the opcode (D9). -/
  | addressSizeOverride
  /-- F0 before the opcode. -/
  | lock
  /-- F2 before the opcode. -/
  | repne
  /-- F3 before the opcode; so the byte string G14 gives for DIVSS is refused (R58, vector X8). -/
  | rep
  /-- A first byte that is none of 66, 0F and the ones named above. -/
  | firstByte (b : Byte)
  /-- A second 66. -/
  | second66
  /-- 66 followed by a byte that is neither 0F nor 66. -/
  | after66 (b : Byte)
  /-- 0F followed by a byte that is not C4. -/
  | after0F (b : Byte)
deriving DecidableEq, Repr

/-- The name under which a first byte other than 66 and 0F is refused (R47). -/
def refusedFirstByte (b : Byte) : DecodeRefusal :=
  if b ∈ [0x26#8, 0x2E#8, 0x36#8, 0x3E#8, 0x64#8, 0x65#8] then .segmentOverride b
  else if b = 0x67#8 then .addressSizeOverride
  else if b = 0xF0#8 then .lock
  else if b = 0xF2#8 then .repne
  else if b = 0xF3#8 then .rep
  else .firstByte b

/-! ## Fields -/

/-- ModRM.mod, bits 7:6 (R40). -/
def modField (b : Byte) : BitVec 2 := b.extractLsb' 6 2
/-- ModRM.reg, bits 5:3 (R40). -/
def regField (b : Byte) : RegNum := b.extractLsb' 3 3
/-- ModRM.rm, bits 2:0 (R40). -/
def rmField (b : Byte) : RegNum := b.extractLsb' 0 3

/-- A byte made of a 2-bit and two 3-bit fields: ModRM (R40) and SIB (R43) have this layout. -/
def packByte (hi : BitVec 2) (mid lo : BitVec 3) : Byte := hi ++ mid ++ lo

/-- Two bytes, the least significant first (R26, D1). -/
def le16 (b0 b1 : Byte) : Word := b1 ++ b0

/-- Four bytes, the least significant first (R43, D1). -/
def le32 (b0 b1 b2 b3 : Byte) : Dword := b3 ++ b2 ++ b1 ++ b0

/-! ## Decoding -/

/-- What a decoding of one part answers: the part and the bytes after it, or a refusal. -/
abbrev Decoded (α : Type) := Except DecodeRefusal (α × List Byte)

/-- A disp8, disp16 or disp32 follows, or none, as `mod` says, for a based operand of 32-bit addressing (R43). -/
def decodeDisp32 (mod : BitVec 2) (bs : List Byte) : Decoded (Disp 32) :=
  if mod = 0#2 then .ok (.none, bs)
  else if mod = 1#2 then
    match bs with
    | b :: rest => .ok (.disp8 b, rest)
    | [] => .error .truncated
  else
    match bs with
    | b0 :: b1 :: b2 :: b3 :: rest => .ok (.full (le32 b0 b1 b2 b3), rest)
    | _ => .error .truncated

/-- The same for 16-bit addressing (R44). -/
def decodeDisp16 (mod : BitVec 2) (bs : List Byte) : Decoded (Disp 16) :=
  if mod = 0#2 then .ok (.none, bs)
  else if mod = 1#2 then
    match bs with
    | b :: rest => .ok (.disp8 b, rest)
    | [] => .error .truncated
  else
    match bs with
    | b0 :: b1 :: rest => .ok (.full (le16 b0 b1), rest)
    | _ => .error .truncated

/-- A memory operand of 32-bit addressing from `mod`, `rm` and the bytes after ModRM (R43). -/
def decodeMem32 (mod : BitVec 2) (rm : RegNum) (bs : List Byte) : Decoded Mem32 :=
  if rm = 4#3 then
    match bs with
    | [] => .error .truncated
    | sib :: rest =>
      if mod = 0#2 ∧ rmField sib = 5#3 then
        match rest with
        | b0 :: b1 :: b2 :: b3 :: rest' =>
          .ok (.sibNoBase (modField sib) (regField sib) (le32 b0 b1 b2 b3), rest')
        | _ => .error .truncated
      else
        match decodeDisp32 mod rest with
        | .ok (disp, rest') => .ok (.sib (modField sib) (regField sib) (rmField sib) disp, rest')
        | .error e => .error e
  else if mod = 0#2 ∧ rm = 5#3 then
    match bs with
    | b0 :: b1 :: b2 :: b3 :: rest => .ok (.absolute (le32 b0 b1 b2 b3), rest)
    | _ => .error .truncated
  else
    match decodeDisp32 mod bs with
    | .ok (disp, rest) => .ok (.based rm disp, rest)
    | .error e => .error e

/-- A memory operand of 16-bit addressing from `mod`, `rm` and the bytes after ModRM (R44). -/
def decodeMem16 (mod : BitVec 2) (rm : RegNum) (bs : List Byte) : Decoded Mem16 :=
  if mod = 0#2 ∧ rm = 6#3 then
    match bs with
    | b0 :: b1 :: rest => .ok (.absolute (le16 b0 b1), rest)
    | _ => .error .truncated
  else
    match decodeDisp16 mod bs with
    | .ok (disp, rest) => .ok (.based rm disp, rest)
    | .error e => .error e

/-- A memory operand under the machine's address size (R43, R44, D9). -/
def decodeMem (a : AddrSize) (mod : BitVec 2) (rm : RegNum) (bs : List Byte) : Decoded MemOperand :=
  match a with
  | .a32 =>
    match decodeMem32 mod rm bs with
    | .ok (m, rest) => .ok (.m32 m, rest)
    | .error e => .error e
  | .a16 =>
    match decodeMem16 mod rm bs with
    | .ok (m, rest) => .ok (.m16 m, rest)
    | .error e => .error e

/-- The register-source instruction of a form (R39, R42). -/
def Form.registerInstr : Form → RegNum → RegNum → Byte → Instr
  | .mmx => .pinsrwMmR32
  | .xmm => .pinsrwXmmR32

/-- The memory-source instruction of a form (R39). -/
def Form.memoryInstr : Form → RegNum → MemOperand → Byte → Instr
  | .mmx => .pinsrwMmM16
  | .xmm => .pinsrwXmmM16

/-- ModRM, its operand and the immediate, after `0F C4` (R41, R42, R45). -/
def decodeOperands (f : Form) (a : AddrSize) (bs : List Byte) : Decoded Instr :=
  match bs with
  | [] => .error .truncated
  | m :: rest =>
    if modField m = 3#2 then
      match rest with
      | [] => .error .truncated
      | imm :: rest' => .ok (f.registerInstr (regField m) (rmField m) imm, rest')
    else
      match decodeMem a (modField m) (rmField m) rest with
      | .error e => .error e
      | .ok (_, []) => .error .truncated
      | .ok (mem, imm :: rest') => .ok (f.memoryInstr (regField m) mem imm, rest')

/-- The second opcode byte, after `0F` (R38, R47). -/
def decodeAfter0F (f : Form) (a : AddrSize) (bs : List Byte) : Decoded Instr :=
  match bs with
  | [] => .error .truncated
  | b :: rest => if b = 0xC4#8 then decodeOperands f a rest else .error (.after0F b)

/-- The decoder (R37, R39, R47): an optional 66, 0F, C4, ModRM, SIB and displacement as they follow, the immediate. -/
def decode (a : AddrSize) (bs : List Byte) : Decoded Instr :=
  match bs with
  | [] => .error .truncated
  | b :: rest =>
    if b = 0x0F#8 then decodeAfter0F .mmx a rest
    else if b = 0x66#8 then
      match rest with
      | [] => .error .truncated
      | c :: rest' =>
        if c = 0x0F#8 then decodeAfter0F .xmm a rest'
        else if c = 0x66#8 then .error .second66
        else .error (.after66 c)
    else .error (refusedFirstByte b)

/-! ## Encoding -/

/-- The bytes of a 16-bit displacement, least significant first (R44). -/
def bytes16 (d : Word) : List Byte := [d.extractLsb' 0 8, d.extractLsb' 8 8]

/-- The bytes of a 32-bit displacement, least significant first (R43). -/
def bytes32 (d : Dword) : List Byte :=
  [d.extractLsb' 0 8, d.extractLsb' 8 8, d.extractLsb' 16 8, d.extractLsb' 24 8]

/-- The `mod` value a based operand's displacement calls for (R43, R44). -/
def Disp.mod {w : Nat} : Disp w → BitVec 2
  | .none => 0#2
  | .disp8 _ => 1#2
  | .full _ => 2#2

/-- The displacement bytes, given those of a full one. -/
def Disp.bytes {w : Nat} (full : BitVec w → List Byte) : Disp w → List Byte
  | .none => []
  | .disp8 b => [b]
  | .full d => full d

/-- The ModRM byte with `reg` = the destination, and the SIB and displacement bytes, of a 32-bit operand (R43). -/
def Mem32.encode (reg : RegNum) : Mem32 → List Byte
  | .based base disp => packByte disp.mod reg base :: disp.bytes bytes32
  | .absolute d => packByte 0#2 reg 5#3 :: bytes32 d
  | .sib scale index base disp =>
    packByte disp.mod reg 4#3 :: packByte scale index base :: disp.bytes bytes32
  | .sibNoBase scale index d => packByte 0#2 reg 4#3 :: packByte scale index 5#3 :: bytes32 d

/-- The ModRM byte and the displacement bytes of a 16-bit operand (R44). -/
def Mem16.encode (reg : RegNum) : Mem16 → List Byte
  | .based rm disp => packByte disp.mod reg rm :: disp.bytes bytes16
  | .absolute d => packByte 0#2 reg 6#3 :: bytes16 d

def MemOperand.encode (reg : RegNum) : MemOperand → List Byte
  | .m32 m => m.encode reg
  | .m16 m => m.encode reg

/-- The bytes of an instruction, in address order (R37, R38, R41, R42, R45). -/
def encode : Instr → List Byte
  | .pinsrwMmR32 d s imm => [0x0F#8, 0xC4#8, packByte 3#2 d s, imm]
  | .pinsrwMmM16 d m imm => 0x0F#8 :: 0xC4#8 :: (m.encode d ++ [imm])
  | .pinsrwXmmR32 d s imm => [0x66#8, 0x0F#8, 0xC4#8, packByte 3#2 d s, imm]
  | .pinsrwXmmM16 d m imm => 0x66#8 :: 0x0F#8 :: 0xC4#8 :: (m.encode d ++ [imm])

/-! ## Length (R46) -/

/-- How many bytes a displacement has, a full one having `n`. -/
def Disp.size {w : Nat} (n : Nat) : Disp w → Nat
  | .none => 0
  | .disp8 _ => 1
  | .full _ => n

/-- The bytes between ModRM and the immediate: a SIB byte if there is one, and the displacement. -/
def MemOperand.extraBytes : MemOperand → Nat
  | .m32 (.based _ disp) => disp.size 4
  | .m32 (.absolute _) => 4
  | .m32 (.sib _ _ _ disp) => 1 + disp.size 4
  | .m32 (.sibNoBase _ _ _) => 5
  | .m16 (.based _ disp) => disp.size 2
  | .m16 (.absolute _) => 2

/-- The length `len` of an instruction in bytes (R46): 1 if `66` is present, 2 for `0F C4`, 1 for ModRM, 1 for a SIB byte if
there is one, the displacement bytes, 1 for the immediate. -/
def Instr.length : Instr → Nat
  | .pinsrwMmR32 _ _ _ => 2 + 1 + 1
  | .pinsrwMmM16 _ m _ => 2 + 1 + m.extraBytes + 1
  | .pinsrwXmmR32 _ _ _ => 1 + 2 + 1 + 1
  | .pinsrwXmmM16 _ m _ => 1 + 2 + 1 + m.extraBytes + 1

/-! ## The host's reading of a table word (log entry 27) -/

/-- The longest instruction has 10 bytes (R46). -/
def maxLength : Nat := 10

/-- The address size a table word is read in: the one of the launch state of 95_test_vectors.md (log entry 9). -/
def tableAddrSize : AddrSize := .a32

/-- The `n` low bytes of a number, the most significant first: how the reader's `fixed` and `fields` of
spec/opcode_table.json number a row's bits. -/
def bytesHighFirst (n w : Nat) : List Byte :=
  (List.range n).map fun k => BitVec.ofNat 8 (w >>> (8 * (n - 1 - k)))

/-- The `n` low bytes of a number, the least significant first. -/
def bytesLowFirst (n w : Nat) : List Byte :=
  (List.range n).map fun k => BitVec.ofNat 8 (w >>> (8 * k))

/-- The bytes, in address order, of the instruction whose bits a table word gives, followed by zeros up to the longest
instruction. The table numbers a row's bits with its first byte the most significant; a word that does not decode so is read
with its first byte the least significant. DEDUCED, log entry 27. -/
def tableBytes (nbits w : Nat) : List Byte :=
  let n := nbits / 8
  let pad := List.replicate (maxLength - n) 0#8
  match decode tableAddrSize (bytesHighFirst n w ++ pad) with
  | .ok _ => bytesHighFirst n w ++ pad
  | .error _ => bytesLowFirst n w ++ pad

/-- The instruction the decoder reads from a table word (none where it refuses). -/
def decodeTableWord (nbits w : Nat) : Option Instr :=
  match decode tableAddrSize (tableBytes nbits w) with
  | .ok (i, _) => some i
  | .error _ => none

end Sys2Proof
end

