-- ==== Sys2Proof/Machine/State.lean ====
section
/-! DEFINITION. The state of the machine (spec/10_state.md), the reasons a step can stop, and the state a launch begins in.
Everything R24 lists is a field: the spec gives no reset value for any of it, and a claim quantifies over all of it. -/

namespace Sys2Proof.Machine

open Sys2Proof

/-- The three operating modes the exception tables are given for (10_state.md R23, D8). -/
inductive Mode where
  | protectedMode
  | realAddress
  | virtual8086
deriving DecidableEq, Repr

/-- The six segments the source names (R23). -/
inductive Seg where
  | cs
  | ds
  | es
  | fs
  | gs
  | ss
deriving DecidableEq, Repr

/-- The error code an exception carries: 0, or the `fault-code` the source never defines, which the model passes on and never
inspects (20_memory.md R34, U1). -/
abbrev FaultCode := Nat

/-- The limit of one segment: the launch parameter `SegLimitOK` of 20_memory.md R34 (D11) as plain data. Log entry 11. -/
inductive SegLimit where
  /-- An expand-up segment with byte-granular limit `limit`. -/
  | expandUp (limit : Nat)
  /-- Any other segment: the offsets inside the limit, as ranges (first, last). -/
  | offsets (ranges : List (Nat × Nat))
deriving DecidableEq, Repr

/-- One segment: its limit, and whether it is readable, present and non-null, which the launch premise of R78 (U3) asks. -/
structure Segment where
  usable : Bool
  limit : SegLimit
deriving DecidableEq, Repr

/-- The six segments' data. -/
structure SegTable where
  cs : Segment
  ds : Segment
  es : Segment
  fs : Segment
  gs : Segment
  ss : Segment
deriving DecidableEq, Repr

/-- Where `Translate` sends a two-byte operand (20_memory.md R28, R34). -/
inductive Target where
  /-- The physical addresses of the first and the second byte; "they need not be adjacent". -/
  | physical (pa0 pa1 : Nat)
  /-- A page fault with its code. -/
  | pageFault (code : FaultCode)
  /-- Memory with read side effects, which is outside the model (R32, D14). -/
  | device
deriving DecidableEq, Repr

/-- One entry of the launch parameter `Translate` (R34, D11) as plain data: operands of segment `seg` whose effective address
lies in `first .. last`. A physical target is that of `first`, and moves with the effective address. Log entry 12. -/
structure TranslationRule where
  seg : Seg
  first : Nat
  last : Nat
  target : Target
deriving DecidableEq, Repr

/-- The launch premises R78 adds by the spec's decisions (the fifth, on segments, is `Segment.usable`). A premise that does not
hold makes the step refuse by name (or read oracle bytes), so no claim can rest on it unsaid. -/
structure Premises where
  /-- Alignment checking is off (D2, U8). -/
  alignmentCheckingOff : Bool
  /-- No other agent writes memory during the run (D14). -/
  memoryQuiescent : Bool
  /-- The program text can be fetched without an exception (D15). -/
  textFetchable : Bool
  /-- No interrupt is taken, or every handler preserves the state in scope (D16). -/
  interruptsHarmless : Bool
deriving DecidableEq, Repr

/-- Data memory: (physical address, byte) pairs, addresses strictly rising, no byte equal to what an unlisted one reads as. -/
abbrev Memory := List Host.Cell

/-- The canonical form of memory. -/
def Memory.wf : Memory → Bool
  | [] => true
  | c :: rest => c.2 != Config.unlistedByte && rest.all (fun d => decide (c.1 < d.1)) && Memory.wf rest

/-- The machine's state (10_state.md). -/
structure State where
  /-- General-purpose registers EAX, ECX, EDX, EBX, ESP, EBP, ESI, EDI (R10, R11). -/
  r32 : Vector Dword 8
  /-- MMX technology registers MM0 to MM7 (R12, R14). -/
  mm : Vector Qword 8
  /-- XMM registers XMM0 to XMM7 (R13). -/
  xmm : Vector Oword 8
  /-- Offset of the next instruction in the program text (R16, D3). -/
  pc : Nat
  /-- The status flags, which PINSRW neither reads nor writes (R17). Width PRESUMED, log entry 15. -/
  eflags : Dword
  /-- EM in CR0 (R18). -/
  cr0EM : Bool
  /-- TS in CR0 (R19). -/
  cr0TS : Bool
  /-- OSFXSR in CR4 (R20). -/
  cr4OSFXSR : Bool
  /-- CPUID feature flag SSE2, a constant of the part (R21). -/
  cpuidSSE2 : Bool
  /-- The part implements the 64-bit form (R5, R60, D17). -/
  hasPinsrwMM : Bool
  /-- There is a pending x87 FPU exception (R22). -/
  x87Pending : Bool
  /-- The operating mode (R23, D8). -/
  mode : Mode
  /-- The address size memory operands are decoded in (R5, D9). -/
  addrSize : AddrSize
  /-- Segment limits (R23, R34). -/
  segs : SegTable
  /-- Segment bases and paging, as translation rules; the first that applies wins (R23, R34). -/
  translation : List TranslationRule
  /-- Data memory (R25). -/
  mem : Memory
  /-- The program text, separate from data memory (R36, D15). -/
  text : List Byte
  /-- Launch premises (R78). -/
  premises : Premises
  /-- The model's own counter, to which the free values of Config are applied; log entry 31. -/
  freeCount : Nat
deriving DecidableEq, Repr

/-- The six exceptions PINSRW can raise (60_exceptions.md R59). -/
inductive Exception where
  /-- #UD, raised by the state checks of every form (R60 to R62). Safe. -/
  | ud
  /-- #NM, raised by the state checks of every form when CR0.TS is set (R63). Safe. -/
  | nm
  /-- #MF, raised by the state checks of the 64-bit forms when an x87 exception is pending, in every mode (R64, D12). Safe. -/
  | mf
  /-- #GP, raised by the memory read of the `m16` forms (R65, R68). Safe. -/
  | gp
  /-- #SS, raised by the memory read of the `m16` forms in protected mode (R66). Safe. -/
  | ss
  /-- #PF, raised by the memory read of the `m16` forms outside real-address mode (R67). Safe. -/
  | pf
deriving DecidableEq, Repr

/-- Why the machine stops with a fault. -/
inductive Fault where
  /-- A raised exception: "the run ends in the state Fault(exception, error code, pc of the faulting instruction)" (R70, D7),
  with nothing changed (R69). Raised by `Machine.raise` alone. Safe: the chip could handle the exception and go on. -/
  | exception (e : Exception) (errorCode : Option FaultCode) (pc : Nat)
deriving DecidableEq, Repr

/-- Why the machine gives a step no meaning. -/
inductive Refusal where
  /-- The instruction has no meaning yet: only an arm of `exec` says so. Safe. -/
  | notModelled (mnemonic : String)
  /-- Raised by the fetch: `pc` is the length of the text, so the run has ended normally and there is no instruction to run
  (70_reset_and_hazards.md R80, D3). Safe. -/
  | endOfRun
  /-- Raised by the fetch: the bytes at `pc` do not decode, or run past the end of the text (R47, R80). Safe. -/
  | undecodable (why : DecodeRefusal)
  /-- Raised by the fetch: the premise "text fetchable" does not hold (D15). Safe. -/
  | textNotFetchable
  /-- Raised by the fetch: the premise "no interrupt taken" does not hold (D16). Safe. -/
  | interruptPossible
  /-- Raised by the fetch, for every instruction, and by the memory read: alignment checking is on, a platform that "must be
  refused at launch" (D2, U8, R31; log entry 21). Safe. -/
  | alignmentChecking
  /-- Raised by the memory read in protected mode: the operand's segment is not readable, present and non-null (U3, R78). Safe. -/
  | segmentNotUsable (seg : Seg)
  /-- Raised by the memory read: the operand is not ordinary memory (R32, D14). Safe. -/
  | deviceMemory
deriving DecidableEq, Repr

/-- The segment of D11's simple instantiation: flat, limit 0xFFFFFFFF. -/
def Segment.flat : Segment := { usable := true, limit := .expandUp 0xFFFFFFFF }

/-- All six segments flat (D11). -/
def SegTable.flat : SegTable := ⟨.flat, .flat, .flat, .flat, .flat, .flat⟩

/-- All of R78's added premises hold. -/
def Premises.allHold : Premises := ⟨true, true, true, true⟩

/-- The state a launch begins in. The spec gives NO reset value (R24, R76): `pc` is offset 0 (R77); the mode, the address
size, the control and feature bits, the segments and the translation are those of the launch state of 95_test_vectors.md (log
entries 8, 9, 11, 12, 16, 24); the registers are zero (14), EFLAGS is the family's (15), memory lists nothing (17) and no
program is loaded (28). -/
def State.reset : State where
  r32 := Vector.replicate 8 0#32
  mm := Vector.replicate 8 0#64
  xmm := Vector.replicate 8 0#128
  pc := 0
  eflags := 2#32
  cr0EM := false
  cr0TS := false
  cr4OSFXSR := true
  cpuidSSE2 := true
  hasPinsrwMM := true
  x87Pending := false
  mode := .protectedMode
  addrSize := .a32
  segs := .flat
  translation := []
  mem := []
  text := []
  premises := .allHold
  freeCount := 0

end Sys2Proof.Machine
end

