-- ==== Sys2Proof/Machine/Ops.lean ====
section
/-! DEFINITION. The named operations over registers and memory, raising an exception, and fetching. Everything a meaning does
to the state goes through these. -/

namespace Sys2Proof.Machine

open Sys2Proof

/-- An operation that answers a value, a fault or a refusal. -/
abbrev Result (α : Type) := Host.Outcome α Fault Refusal

/-- Go on with the value of an operation, or stop as it stopped. -/
def andThen {α β : Type} (x : Result α) (f : α → Result β) : Result β :=
  match x with
  | .next a => f a
  | .fault r => .fault r
  | .refused r => .refused r

/-! ## Raising an exception -/

/-- `raise #XX(code)`: end the instruction with the exception, changing no state (00_scope.md R8; 60_exceptions.md R69, R70).
The spec describes no entry and no return (R70, R74): the run ends. -/
def raise {α : Type} (e : Exception) (code : Option FaultCode) (s : State) : Result α :=
  .fault (.exception e code s.pc)

/-! ## Registers (10_state.md R10 to R16) -/

/-- `r32[n]`. -/
def readR32 (s : State) (n : RegNum) : Dword := s.r32[n.toNat]
/-- `mm[n]`. -/
def readMm (s : State) (n : RegNum) : Qword := s.mm[n.toNat]
/-- `xmm[n]`. -/
def readXmm (s : State) (n : RegNum) : Oword := s.xmm[n.toNat]

/-- `mm[n] <- v`. -/
def writeMm (s : State) (n : RegNum) (v : Qword) : State := { s with mm := s.mm.set n.toNat v }
/-- `xmm[n] <- v`. -/
def writeXmm (s : State) (n : RegNum) (v : Oword) : State := { s with xmm := s.xmm.set n.toNat v }

/-- `pc <- pc + len` (R16). -/
def advancePc (s : State) (len : Nat) : State := { s with pc := s.pc + len }

/-- `n` free values have been taken. -/
def takeFree (s : State) (n : Nat) : State := { s with freeCount := s.freeCount + n }

/-! ## Memory -/

/-- The byte at a physical address. -/
def readByte : Memory → Nat → Byte
  | [], _ => Config.unlistedByte
  | c :: rest, a => if c.1 = a then c.2 else readByte rest a

/-- Lay a byte at a physical address, keeping the canonical form. No PINSRW writes memory (20_memory.md R30): this is how a
launch's memory contents are written down. -/
def writeByte : Memory → Nat → Byte → Memory
  | [], a, b => if b = Config.unlistedByte then [] else [(a, b)]
  | c :: rest, a, b =>
    if a < c.1 then (if b = Config.unlistedByte then c :: rest else (a, b) :: c :: rest)
    else if a = c.1 then (if b = Config.unlistedByte then rest else (a, b) :: rest)
    else c :: writeByte rest a b

/-- Lay consecutive bytes from an address up. -/
def writeBytes (m : Memory) (a : Nat) : List Byte → Memory
  | [] => m
  | b :: bs => writeBytes (writeByte m a b) (a + 1) bs

/-! ## Segments and translation (20_memory.md R34) -/

/-- The data of one segment. -/
def SegTable.get (t : SegTable) : Seg → Segment
  | .cs => t.cs
  | .ds => t.ds
  | .es => t.es
  | .fs => t.fs
  | .gs => t.gs
  | .ss => t.ss

/-- How many effective addresses an address size has. -/
def addressSpan : AddrSize → Nat
  | .a16 => 0x10000
  | .a32 => 0x100000000

/-- Every byte `ea .. ea + n - 1` is inside the limit (R34, C6); for an expand-up segment `ea + n - 1 <= L` and no wrap past the
address size. -/
def SegLimit.covers (limit : SegLimit) (a : AddrSize) (ea n : Nat) : Bool :=
  match limit with
  | .expandUp l => decide (ea + n ≤ l + 1) && decide (ea + n ≤ addressSpan a)
  | .offsets ranges =>
    (List.range n).all fun k => ranges.any fun r => decide (r.1 ≤ ea + k) && decide (ea + k ≤ r.2)

/-- `SegLimitOK(seg, ea, n)` (R34). -/
def segLimitOK (s : State) (seg : Seg) (ea n : Nat) : Bool :=
  ((SegTable.get s.segs seg).limit).covers s.addrSize ea n

/-- The rule is one for this operand. In real-address mode a page-fault rule is none: there Translate never page-faults (R34). -/
def TranslationRule.applies (r : TranslationRule) (mode : Mode) (seg : Seg) (ea : Nat) : Bool :=
  decide (r.seg = seg) && decide (r.first ≤ ea) && decide (ea ≤ r.last) &&
    match r.target with
    | .pageFault _ => decide (mode ≠ .realAddress)
    | _ => true

/-- A target moved by `k` bytes. -/
def Target.shift (k : Nat) : Target → Target
  | .physical pa0 pa1 => .physical (pa0 + k) (pa1 + k)
  | .pageFault code => .pageFault code
  | .device => .device

/-- The first rule that applies decides; with none, the operand is at its own effective address (D11's identity). -/
def translateBy (mode : Mode) (seg : Seg) (ea : Nat) : List TranslationRule → Target
  | [] => .physical ea (ea + 1)
  | r :: rest => if r.applies mode seg ea then r.target.shift (ea - r.first) else translateBy mode seg ea rest

/-- `Translate(seg, ea, 2, read)` (R34). -/
def translateOperand (s : State) (seg : Seg) (ea : Nat) : Target := translateBy s.mode seg ea s.translation

/-! ## The read primitive (R28) -/

/-- The limit test of `MemRead(seg, ea, 2)`: the exception it raises, if any (R28; R65, R66 in protected mode, R68 in the others).
Its error code is 0. -/
def limitException (s : State) (seg : Seg) (ea : Nat) : Option Exception :=
  match s.mode with
  | .protectedMode => if segLimitOK s seg ea 2 then none else if seg = .ss then some .ss else some .gp
  | _ => if ea > 0xFFFF ∨ ea + 1 > 0xFFFF then some .gp else none

/-- The premises of R78 about the operand that the read asks for: the refusal where one does not hold. With alignment checking on
every read of memory is refused, aligned or not, so no address has to decide which is misaligned (R31, D2, log entry 21); in
protected mode so is one through a segment that is not usable (U3, log entry 22). -/
def operandRefusal (s : State) (seg : Seg) : Option Refusal :=
  if s.premises.alignmentCheckingOff = false then some .alignmentChecking
  else if s.mode = .protectedMode ∧ (SegTable.get s.segs seg).usable = false then some (.segmentNotUsable seg)
  else none

/-- The 16-bit value of the bytes at two physical addresses, the lower byte in bits 7:0 (R26), and the state after the read:
memory's bytes, or, where other agents may write memory, two oracle bytes (R35, D14). -/
def loadWord (s : State) (pa0 pa1 : Nat) : Word × State :=
  if s.premises.memoryQuiescent then (le16 (readByte s.mem pa0) (readByte s.mem pa1), s)
  else (le16 (Config.oracleByte s.freeCount) (Config.oracleByte (s.freeCount + 1)), takeFree s 2)

/-- `MemRead(seg, ea, 2)` (R28): the limit test, then the translation, then the two bytes. -/
def memRead (s : State) (seg : Seg) (ea : Nat) : Result (Word × State) :=
  match operandRefusal s seg with
  | some r => .refused r
  | none =>
    match limitException s seg ea with
    | some e => raise e (some 0) s
    | none =>
      match translateOperand s seg ea with
      | .pageFault code => raise .pf (some code) s
      | .device => .refused .deviceMemory
      | .physical pa0 pa1 => .next (loadWord s pa0 pa1)

/-! ## Fetching (R16, R80, D2, D3, D15, D16) -/

/-- The instruction at `pc`, or why there is none to run. A launch on a platform where one of the premises of R78 about the whole
run does not hold is refused, whatever its text: fetching (D15), interrupts (D16), and alignment checking, which "must be refused
at launch" (D2, U8). Fetch reads the text, never data memory (R36). -/
def fetch (s : State) : Except Refusal Instr :=
  if s.premises.textFetchable = false then .error .textNotFetchable
  else if s.premises.interruptsHarmless = false then .error .interruptPossible
  else if s.premises.alignmentCheckingOff = false then .error .alignmentChecking
  else if s.pc = s.text.length then .error .endOfRun
  else
    match decode s.addrSize (s.text.drop s.pc) with
    | .ok (i, _) => .ok i
    | .error e => .error (.undecodable e)

/-- The text with bytes laid over it from an offset on, lengthened with zeros where it is too short. -/
def overlay (text : List Byte) (at_ : Nat) (bytes : List Byte) : List Byte :=
  (text ++ List.replicate (at_ - text.length) 0#8).take at_ ++ bytes ++ text.drop (at_ + bytes.length)

/-- A state whose next step fetches a table word's instruction: the word's bytes stand in the text at `pc`, and what the fetch
needs besides holds: the address size the word is read in, and the three premises a launch is refused without (log entry 28). -/
def placeTableWord (s : State) (nbits w : Nat) : State :=
  { s with
    text := overlay s.text s.pc (tableBytes nbits w)
    addrSize := tableAddrSize
    premises := { s.premises with textFetchable := true, interruptsHarmless := true, alignmentCheckingOff := true } }

end Sys2Proof.Machine
end

