-- ==== Sys2Proof/Machine/Flags.lean ====
section
/-! DEFINITION. Flags. PINSRW computes no status flag: "Flags affected: None." (spec/10_state.md R17), so `eflags` has no operation
at all. What it does test are control and feature bits, each only as the condition of an exception (R18 to R22;
spec/60_exceptions.md R60 to R64). -/

namespace Sys2Proof.Machine

open Sys2Proof

/-- #UD: CR0.EM set, either form (R60); the part lacks the 64-bit form (R60, D17); OSFXSR clear (R61) or SSE2 clear (R62), the
128-bit form. -/
def udCondition (f : Form) (s : State) : Bool :=
  s.cr0EM ||
    match f with
    | .mmx => !s.hasPinsrwMM
    | .xmm => !s.cr4OSFXSR || !s.cpuidSSE2

/-- #NM: CR0.TS set, either form (R63). -/
def nmCondition (s : State) : Bool := s.cr0TS

/-- #MF: a pending x87 FPU exception, the 64-bit form, every mode (R64, D12). -/
def mfCondition (f : Form) (s : State) : Bool :=
  match f with
  | .mmx => s.x87Pending
  | .xmm => false

/-- The exceptions of the state checks whose condition holds. -/
def stateExceptions (f : Form) (s : State) : List Exception :=
  (if udCondition f s then [.ud] else []) ++
    ((if nmCondition s then [.nm] else []) ++ (if mfCondition f s then [.mf] else []))

/-- Which one of the applicable exceptions is reported: the one at `choice`, so any of them, `choice` being a free value (R71, U4,
D6). -/
def reported (choice : Nat) : List Exception → Option Exception
  | [] => none
  | [e] => some e
  | e :: es => (e :: es)[choice % (e :: es).length]?

/-- Step 1 of R51: raise one of the applicable exceptions of R60 to R64, which carry no error code (R59), or go on. R71 leaves the
choice open and does not say whether the choice in one state is tied to that in another. DESIGN CHOICE, log entry 6: states that
agree in `freeCount` and in which of the three exceptions apply report the same one; otherwise nothing ties them, so every order
of the three, and no order at all, is admitted. -/
def stateChecks (f : Form) (s : State) : Result Unit :=
  match reported (Config.exceptionChoice s.freeCount (udCondition f s) (nmCondition s) (mfCondition f s)) (stateExceptions f s) with
  | some e => raise e none s
  | none => .next ()

end Sys2Proof.Machine
end

