-- ==== Sys2Proof/Machine/Operands.lean ====
section
/-! DEFINITION. The operand forms: the effective address and segment of a memory operand (spec/30_encoding.md R43, R44), the word
the count selects (R45), and the insertion itself (spec/40_pinsrw.md R50, R51). -/

namespace Sys2Proof.Machine

open Sys2Proof

/-! ## Effective addresses -/

/-- What a displacement adds: nothing, a sign-extended byte, or itself (R43, R44). -/
def dispValue {w : Nat} : Disp w → BitVec w
  | .none => 0#w
  | .disp8 b => b.signExtend w
  | .full d => d

/-- SS for addresses based on ESP or EBP, else DS (R27, R43). -/
def baseSegment (base : RegNum) : Seg := if base = 4#3 ∨ base = 5#3 then .ss else .ds

/-- The scaled index of a SIB byte; index 100 is none (R43). -/
def scaledIndex (s : State) (scale : BitVec 2) (index : RegNum) : Dword :=
  if index = 4#3 then 0#32 else readR32 s index <<< scale.toNat

/-- Segment and effective address of a 32-bit operand, a sum modulo 2^32 (R43). -/
def address32 (s : State) : Mem32 → Seg × Dword
  | .based base disp => (if base = 5#3 then .ss else .ds, readR32 s base + dispValue disp)
  | .absolute d => (.ds, d)
  | .sib scale index base disp =>
    (baseSegment base, readR32 s base + scaledIndex s scale index + dispValue disp)
  | .sibNoBase scale index d => (.ds, d + scaledIndex s scale index)

/-- The low half of a general-purpose register (R44: BX, BP, SI, DI). -/
def low16 (s : State) (n : RegNum) : Word := (readR32 s n).truncate 16

/-- The base expression of row `rm` of R44's table. -/
def base16 (s : State) (rm : RegNum) : Word :=
  match rm.toNat with
  | 0 => low16 s 3#3 + low16 s 6#3
  | 1 => low16 s 3#3 + low16 s 7#3
  | 2 => low16 s 5#3 + low16 s 6#3
  | 3 => low16 s 5#3 + low16 s 7#3
  | 4 => low16 s 6#3
  | 5 => low16 s 7#3
  | 6 => low16 s 5#3
  | _ => low16 s 3#3

/-- The segment of row `rm` of R44's table: SS where BP is in the expression. -/
def seg16 (rm : RegNum) : Seg := if rm = 2#3 ∨ rm = 3#3 ∨ rm = 6#3 then .ss else .ds

/-- Segment and effective address of a 16-bit operand, a sum modulo 2^16 (R44). -/
def address16 (s : State) : Mem16 → Seg × Word
  | .based rm disp => (seg16 rm, base16 s rm + dispValue disp)
  | .absolute d => (.ds, d)

/-- Segment and effective address of a memory operand (R27). -/
def operandAddress (s : State) : MemOperand → Seg × Nat
  | .m32 m => ((address32 s m).1, (address32 s m).2.toNat)
  | .m16 m => ((address16 s m).1, (address16 s m).2.toNat)

/-- The word of a memory operand, by the read primitive, and the state after the read (R28, R51 step 2). -/
def readOperand (s : State) (m : MemOperand) : Result (Word × State) :=
  memRead s (operandAddress s m).1 (operandAddress s m).2

/-! ## The count operand and the insertion -/

/-- `SEL = Count & 3`, the 64-bit form (R45). -/
def sel64 (count : Byte) : Nat := (count &&& 3#8).toNat

/-- `SEL = Count & 7`, the 128-bit form (R45). -/
def sel128 (count : Byte) : Nat := (count &&& 7#8).toNat

/-- `Masks[k] = 0xFFFF << 16k` in a `w`-bit value (R50). -/
def mask (w k : Nat) : BitVec w := 0xFFFF#w <<< (16 * k)

/-- Step 3 of R51: `(Destination & ~Mask) | ((zext_W(Source) << (SEL * 16)) & Mask)`. -/
def insertWord {w : Nat} (dest : BitVec w) (source : Dword) (sel : Nat) : BitVec w :=
  (dest &&& ~~~(mask w sel)) ||| ((source.setWidth w <<< (sel * 16)) &&& mask w sel)

end Sys2Proof.Machine
end

