-- ==== Sys2Proof/Machine/Pinsrw.lean ====
section
/-! DEFINITION. The meanings of the four forms of PINSRW (spec/40_pinsrw.md R51 to R55): checks that do not touch memory, the source
word, the insertion, the advance of `pc`. -/

namespace Sys2Proof.Machine

open Sys2Proof

/-- `PINSRW mm, r32, imm8` (R52). -/
def execPinsrwMmR32 (d r : RegNum) (imm : Byte) (s : State) : Result State :=
  andThen (stateChecks .mmx s) fun _ =>
    .next (advancePc (writeMm s d (insertWord (readMm s d) (readR32 s r) (sel64 imm)))
      (Instr.pinsrwMmR32 d r imm).length)

/-- `PINSRW mm, m16, imm8` (R53). -/
def execPinsrwMmM16 (d : RegNum) (m : MemOperand) (imm : Byte) (s : State) : Result State :=
  andThen (stateChecks .mmx s) fun _ =>
    andThen (readOperand s m) fun ws =>
      .next (advancePc (writeMm ws.2 d (insertWord (readMm ws.2 d) (ws.1.zeroExtend 32) (sel64 imm)))
        (Instr.pinsrwMmM16 d m imm).length)

/-- `PINSRW xmm, r32, imm8` (R54). -/
def execPinsrwXmmR32 (d r : RegNum) (imm : Byte) (s : State) : Result State :=
  andThen (stateChecks .xmm s) fun _ =>
    .next (advancePc (writeXmm s d (insertWord (readXmm s d) (readR32 s r) (sel128 imm)))
      (Instr.pinsrwXmmR32 d r imm).length)

/-- `PINSRW xmm, m16, imm8` (R55). -/
def execPinsrwXmmM16 (d : RegNum) (m : MemOperand) (imm : Byte) (s : State) : Result State :=
  andThen (stateChecks .xmm s) fun _ =>
    andThen (readOperand s m) fun ws =>
      .next (advancePc (writeXmm ws.2 d (insertWord (readXmm ws.2 d) (ws.1.zeroExtend 32) (sel128 imm)))
        (Instr.pinsrwXmmM16 d m imm).length)

end Sys2Proof.Machine
end

