-- ==== Sys2Proof/Machine/Dispatch.lean ====
section
/-! DEFINITION. What each instruction does: one arm for each constructor of `Instr` (spec/opcode_table.json). -/

namespace Sys2Proof.Machine

def exec (i : Instr) (s : State) : Host.Outcome State Fault Refusal :=
  match i with
  | .pinsrwMmR32 d r imm => Sys2Proof.Machine.execPinsrwMmR32 d r imm s
  | .pinsrwMmM16 d m imm => Sys2Proof.Machine.execPinsrwMmM16 d m imm s
  | .pinsrwXmmR32 d r imm => Sys2Proof.Machine.execPinsrwXmmR32 d r imm s
  | .pinsrwXmmM16 d m imm => Sys2Proof.Machine.execPinsrwXmmM16 d m imm s

end Sys2Proof.Machine
end

