-- ==== Sys2Proof/Machine/Step.lean ====
section
/-! DEFINITION. One step: fetch the instruction at `pc` and execute it, one at a time and in text order
(spec/70_reset_and_hazards.md R79, R80). -/

namespace Sys2Proof.Machine

/-- Fetch, then execute; or refuse, where there is no instruction to run (R80). -/
def step (s : State) : Host.Outcome State Fault Refusal :=
  match fetch s with
  | .error r => .refused r
  | .ok i => exec i s

/-- A state whose next step fetches and runs the instruction of a table word (log entries 27, 28). -/
def State.withFetchWord (s : State) (nbits w : Nat) : State := placeTableWord s nbits w

end Sys2Proof.Machine
end

