-- ==== Sys2Proof/Safety.lean ====
section
/-! DEFINITION. The terms in which claims speak of a run: what an instruction names, when it completes (spec/70_reset_and_hazards.md
R78), what a launch fixes, the invariant, and the words of a destination (spec/40_pinsrw.md R56). -/

namespace Sys2Proof

/-! ## What an instruction names -/

/-- The destination's register file (R39). -/
def Instr.form : Instr → Form
  | .pinsrwMmR32 _ _ _ => .mmx
  | .pinsrwMmM16 _ _ _ => .mmx
  | .pinsrwXmmR32 _ _ _ => .xmm
  | .pinsrwXmmM16 _ _ _ => .xmm

/-- The destination register number (R41). -/
def Instr.dest : Instr → RegNum
  | .pinsrwMmR32 d _ _ => d
  | .pinsrwMmM16 d _ _ => d
  | .pinsrwXmmR32 d _ _ => d
  | .pinsrwXmmM16 d _ _ => d

/-- The count operand, `imm8` (R45). -/
def Instr.count : Instr → Byte
  | .pinsrwMmR32 _ _ imm => imm
  | .pinsrwMmM16 _ _ imm => imm
  | .pinsrwXmmR32 _ _ imm => imm
  | .pinsrwXmmM16 _ _ imm => imm

/-- How many words a destination register of the form has (R12, R13). -/
def Form.words : Form → Nat
  | .mmx => 4
  | .xmm => 8

/-- The word of the destination the instruction writes: the count modulo the number of words (R45). -/
def Instr.word (i : Instr) : Nat := i.count.toNat % i.form.words

/-- The memory operand of a memory-source form. -/
def Instr.memOperand : Instr → Option MemOperand
  | .pinsrwMmR32 _ _ _ => none
  | .pinsrwMmM16 _ m _ => some m
  | .pinsrwXmmR32 _ _ _ => none
  | .pinsrwXmmM16 _ m _ => some m

/-- The same instruction with another count operand. -/
def Instr.withCount : Instr → Byte → Instr
  | .pinsrwMmR32 d s _, imm => .pinsrwMmR32 d s imm
  | .pinsrwMmM16 d m _, imm => .pinsrwMmM16 d m imm
  | .pinsrwXmmR32 d s _, imm => .pinsrwXmmR32 d s imm
  | .pinsrwXmmM16 d m _, imm => .pinsrwXmmM16 d m imm

/-- The 128-bit form with the same operands (R39). -/
def Instr.toXmm : Instr → Instr
  | .pinsrwMmR32 d s imm => .pinsrwXmmR32 d s imm
  | .pinsrwMmM16 d m imm => .pinsrwXmmM16 d m imm
  | .pinsrwXmmR32 d s imm => .pinsrwXmmR32 d s imm
  | .pinsrwXmmM16 d m imm => .pinsrwXmmM16 d m imm

namespace Machine

/-! ## The launch premises of R78 -/

/-- The rows of R78 about control bits, feature bits and the pending x87 exception. -/
abbrev StateReady (f : Form) (s : State) : Prop :=
  s.cr0EM = false ∧ s.cr0TS = false ∧
    match f with
    | .mmx => s.hasPinsrwMM = true ∧ s.x87Pending = false
    | .xmm => s.cr4OSFXSR = true ∧ s.cpuidSSE2 = true

/-- The premises R78 adds by decision that every step asks for: a launch without one of them is refused, whatever its text (D15,
D16, D2). -/
abbrev LaunchReady (s : State) : Prop :=
  s.premises.textFetchable = true ∧ s.premises.interruptsHarmless = true ∧ s.premises.alignmentCheckingOff = true

/-- The premises R78 adds by decision that a read of memory through `seg` asks for: alignment checking off (D2, R31); a usable
segment (U3), which is asked in protected mode only (DESIGN CHOICE, log entry 22). -/
abbrev PremisesReady (s : State) (seg : Seg) : Prop :=
  s.premises.alignmentCheckingOff = true ∧
    (s.mode = .protectedMode → (s.segs.get seg).usable = true)

/-- The limit rows of R78: both bytes inside the segment's limit in protected mode, `ea <= 0xFFFE` in the other modes. -/
abbrev LimitReady (s : State) (seg : Seg) (ea : Nat) : Prop :=
  (s.mode = .protectedMode → segLimitOK s seg ea 2 = true) ∧ (s.mode ≠ .protectedMode → ea ≤ 0xFFFE)

/-- The operand rows of R78's table with `PremisesReady`; its bytes are at physical addresses `pa0` and `pa1`, in ordinary memory
(log entry 23). Memory quiescence (D14) is not among them: a claim about the word read asks for it beside (log entry 18). -/
abbrev OperandReady (s : State) (m : MemOperand) (pa0 pa1 : Nat) : Prop :=
  PremisesReady s (operandAddress s m).1 ∧
    LimitReady s (operandAddress s m).1 (operandAddress s m).2 ∧
    translateOperand s (operandAddress s m).1 (operandAddress s m).2 = .physical pa0 pa1

/-- The conditions under which `exec` completes an instruction: the rows of R78's table and, of the premises R78 adds by decision,
those of `OperandReady` for a memory form. The others of R78 are asked by the step (`LaunchReady`), or decide which word is read
(quiescence); that they stand so is the model's choice (log entries 18 to 23). -/
def Ready (i : Instr) (s : State) : Prop :=
  StateReady i.form s ∧ ∀ m, i.memOperand = some m → ∃ pa0 pa1, OperandReady s m pa0 pa1

/-- Executing `i` in `s` raises `e` with the error code `code`, at the instruction itself (R70). -/
def Raises (i : Instr) (s : State) (e : Exception) (code : Option FaultCode) : Prop :=
  exec i s = .fault (.exception e code s.pc)

/-- A condition of #UD holds (R60, R61, R62). -/
abbrev UdApplies (f : Form) (s : State) : Prop :=
  s.cr0EM = true ∨ (f = .mmx ∧ s.hasPinsrwMM = false) ∨ (f = .xmm ∧ (s.cr4OSFXSR = false ∨ s.cpuidSSE2 = false))

/-- The bytes after `0F C4` are those of a memory source at `seg` and `ea`, in both forms (R37, R43, R44). -/
def OperandAt (a : AddrSize) (bytes : List Byte) (s : State) (seg : Seg) (ea : Nat) : Prop :=
  ∃ d m imm,
    decode a (0x0F#8 :: 0xC4#8 :: bytes) = .ok (.pinsrwMmM16 d m imm, []) ∧
      decode a (0x66#8 :: 0x0F#8 :: 0xC4#8 :: bytes) = .ok (.pinsrwXmmM16 d m imm, []) ∧
        operandAddress s m = (seg, ea)

/-! ## What a run changes -/

/-- Everything but the two vector register files, `pc` and the model's counter is as it was: no PINSRW changes a launch
parameter, a general-purpose register, a flag, memory or text (R15, R78). -/
def SameLaunch (s t : State) : Prop :=
  t.r32 = s.r32 ∧ t.eflags = s.eflags ∧ t.cr0EM = s.cr0EM ∧ t.cr0TS = s.cr0TS ∧ t.cr4OSFXSR = s.cr4OSFXSR ∧
    t.cpuidSSE2 = s.cpuidSSE2 ∧ t.hasPinsrwMM = s.hasPinsrwMM ∧ t.x87Pending = s.x87Pending ∧ t.mode = s.mode ∧
    t.addrSize = s.addrSize ∧ t.segs = s.segs ∧ t.translation = s.translation ∧ t.mem = s.mem ∧ t.text = s.text ∧
    t.premises = s.premises

/-- The same change made to the next state of an outcome, and no change to a fault or a refusal. -/
def mapNext (f : State → State) : Result State → Result State
  | .next t => .next (f t)
  | .fault r => .fault r
  | .refused r => .refused r

/-- The invariant every step keeps: memory is in its canonical form, and `pc` does not stand past the end of the text (R80). -/
abbrev State.Inv (s : State) : Prop := Memory.wf s.mem = true ∧ s.pc ≤ s.text.length

/-- The run has ended normally (R80). -/
abbrev State.Finished (s : State) : Prop := s.pc = s.text.length

/-! ## The words of a destination (R56) -/

/-- Word `k` of a value: bits 16k+15 to 16k. -/
def lane {w : Nat} (v : BitVec w) (k : Nat) : Word := v.extractLsb' (16 * k) 16

/-- From `s` to `t`, word `sel` of `mm[d]` became `w` and no other word of any vector register changed. -/
def MmWordSet (s t : State) (d : RegNum) (sel : Nat) (w : Word) : Prop :=
  (∀ k, k < 4 → lane (readMm t d) k = if k = sel then w else lane (readMm s d) k) ∧
    (∀ n, n ≠ d → readMm t n = readMm s n) ∧ t.xmm = s.xmm

/-- From `s` to `t`, word `sel` of `xmm[d]` became `w` and no other word of any vector register changed. -/
def XmmWordSet (s t : State) (d : RegNum) (sel : Nat) (w : Word) : Prop :=
  (∀ k, k < 8 → lane (readXmm t d) k = if k = sel then w else lane (readXmm s d) k) ∧
    (∀ n, n ≠ d → readXmm t n = readXmm s n) ∧ t.mm = s.mm

end Machine

end Sys2Proof
end

