-- ==== Sys2Proof/Certificates/Slice0/Obligations.lean ====
section
/-! DEFINITION. The statements for the provers, each with the rule of spec/ it formalises. -/

open Sys2Proof Sys2Proof.Machine

/-! ## Encoding (spec/30_encoding.md) -/

/-- Decoding the bytes of a well-formed instruction gives it back, with the bytes after it (R37, R40 to R45). -/
def Obligations.DecodeOfEncodeIsTheInstruction : Prop :=
  ∀ (a : AddrSize) (i : Instr) (rest : List Byte), i.wellFormed = true → i.fits a = true →
    decode a (encode i ++ rest) = .ok (i, rest)

/-- What the decoder accepts is the encoding of a well-formed instruction of the machine's address size, and it consumes exactly
that encoding (R37, R47). -/
def Obligations.DecodeAcceptsOnlyEncodings : Prop :=
  ∀ (a : AddrSize) (bs : List Byte) (i : Instr) (rest : List Byte), decode a bs = .ok (i, rest) →
    i.wellFormed = true ∧ i.fits a = true ∧ bs = encode i ++ rest

/-- Words written out from the spec (95_test_vectors.md E1, E5, E8, E13, E16, E17) decode to what they stand for. -/
def Obligations.SpecWordsDecode : Prop :=
  decode .a32 [0x0F#8, 0xC4#8, 0xC0#8, 0x00#8] = .ok (.pinsrwMmR32 0#3 0#3 0#8, []) ∧
  decode .a32 [0x66#8, 0x0F#8, 0xC4#8, 0xDE#8, 0x07#8] = .ok (.pinsrwXmmR32 3#3 6#3 7#8, []) ∧
  decode .a32 [0x0F#8, 0xC4#8, 0x45#8, 0x08#8, 0x01#8] =
    .ok (.pinsrwMmM16 0#3 (.m32 (.based 5#3 (.disp8 8#8))) 1#8, []) ∧
  decode .a32 [0x66#8, 0x0F#8, 0xC4#8, 0x14#8, 0xF5#8, 0x78#8, 0x56#8, 0x34#8, 0x12#8, 0x06#8] =
    .ok (.pinsrwXmmM16 2#3 (.m32 (.sibNoBase 3#2 6#3 0x12345678#32)) 6#8, []) ∧
  decode .a16 [0x0F#8, 0xC4#8, 0x1E#8, 0x34#8, 0x12#8, 0x01#8] =
    .ok (.pinsrwMmM16 3#3 (.m16 (.absolute 0x1234#16)) 1#8, []) ∧
  decode .a16 [0x66#8, 0x0F#8, 0xC4#8, 0x49#8, 0xFF#8, 0x07#8] =
    .ok (.pinsrwXmmM16 1#3 (.m16 (.based 1#3 (.disp8 0xFF#8))) 7#8, [])

/-- The byte 66 selects the 128-bit form, its absence the 64-bit form; it changes the destination's file and width and nothing else
of the instruction (R39). -/
def Obligations.Byte66SelectsTheXmmForm : Prop :=
  (∀ (a : AddrSize) (bs : List Byte) (i : Instr) (rest : List Byte), decode a bs = .ok (i, rest) →
    (i.form = .xmm ↔ bs.head? = some 0x66#8)) ∧
  (∀ (a : AddrSize) (bs : List Byte) (i : Instr) (rest : List Byte), decode a bs = .ok (i, rest) → i.form = .mmx →
    decode a (0x66#8 :: bs) = .ok (i.toXmm, rest) ∧ i.toXmm.form = .xmm ∧ i.form.words = 4 ∧ i.toXmm.form.words = 8 ∧
      i.toXmm.dest = i.dest ∧ i.toXmm.memOperand = i.memOperand ∧ i.toXmm.count = i.count)

/-- Every byte sequence that does not begin `0F C4` or `66 0F C4` is refused (R47), by name (D10): by the name of its wrong byte, or,
for the four sequences that end before one, as truncated. -/
def Obligations.OtherByteSequencesRefused : Prop :=
  (∀ (a : AddrSize) (b : Byte) (rest : List Byte), b ≠ 0x66#8 → b ≠ 0x0F#8 →
    decode a (b :: rest) = .error (refusedFirstByte b)) ∧
  (∀ (a : AddrSize), ∀ bs ∈ [[], [0x0F#8], [0x66#8], [0x66#8, 0x0F#8]], decode a bs = .error .truncated) ∧
  (∀ (a : AddrSize) (b : Byte) (rest : List Byte), b ≠ 0x0F#8 →
    decode a (0x66#8 :: b :: rest) = .error (if b = 0x66#8 then .second66 else .after66 b)) ∧
  (∀ (a : AddrSize) (b : Byte) (rest : List Byte), b ≠ 0xC4#8 →
    decode a (0x0F#8 :: b :: rest) = .error (.after0F b) ∧
      decode a (0x66#8 :: 0x0F#8 :: b :: rest) = .error (.after0F b)) ∧
  (∀ b ∈ [0x26#8, 0x2E#8, 0x36#8, 0x3E#8, 0x64#8, 0x65#8], refusedFirstByte b = .segmentOverride b) ∧
  refusedFirstByte 0x67#8 = .addressSizeOverride ∧ refusedFirstByte 0xF0#8 = .lock ∧
  refusedFirstByte 0xF2#8 = .repne ∧ refusedFirstByte 0xF3#8 = .rep

/-- The bytes of an instruction cut short are refused as truncated (R46, R80, vector X6). -/
def Obligations.InstructionCutShortIsTruncated : Prop :=
  ∀ (a : AddrSize) (i : Instr) (n : Nat), i.wellFormed = true → i.fits a = true → n < i.length →
    decode a ((encode i).take n) = .error .truncated

/-- All values of `imm8`, `reg`, `mod` and `rm` are valid (R48): with enough bytes after it, every ModRM byte decodes in both
forms, to the same operands. -/
def Obligations.EveryModRmByteDecodes : Prop :=
  (∀ (a : AddrSize) (m imm : Byte) (rest : List Byte), modField m = 3#2 →
    decode a (0x0F#8 :: 0xC4#8 :: m :: imm :: rest) = .ok (.pinsrwMmR32 (regField m) (rmField m) imm, rest) ∧
    decode a (0x66#8 :: 0x0F#8 :: 0xC4#8 :: m :: imm :: rest) =
      .ok (.pinsrwXmmR32 (regField m) (rmField m) imm, rest)) ∧
  (∀ (a : AddrSize) (m : Byte) (bytes : List Byte), modField m ≠ 3#2 → 6 ≤ bytes.length →
    ∃ mem imm rest,
      decode a (0x0F#8 :: 0xC4#8 :: m :: bytes) = .ok (.pinsrwMmM16 (regField m) mem imm, rest) ∧
      decode a (0x66#8 :: 0x0F#8 :: 0xC4#8 :: m :: bytes) = .ok (.pinsrwXmmM16 (regField m) mem imm, rest))

/-- The length is the number of bytes the decoder consumes, and lies in the range R46's table gives the form. -/
def Obligations.LengthsByForm : Prop :=
  ∀ (a : AddrSize) (bs : List Byte) (i : Instr) (rest : List Byte), decode a bs = .ok (i, rest) →
    bs.length = i.length + rest.length ∧
    match i, a with
    | .pinsrwMmR32 _ _ _, _ => i.length = 4
    | .pinsrwXmmR32 _ _ _, _ => i.length = 5
    | .pinsrwMmM16 _ _ _, .a32 => 4 ≤ i.length ∧ i.length ≤ 9
    | .pinsrwXmmM16 _ _ _, .a32 => 5 ≤ i.length ∧ i.length ≤ 10
    | .pinsrwMmM16 _ _ _, .a16 => 4 ≤ i.length ∧ i.length ≤ 6
    | .pinsrwXmmM16 _ _ _, .a16 => 5 ≤ i.length ∧ i.length ≤ 7

/-- Segment and effective address of a 32-bit memory operand, row by row of R43's table, from the bytes. -/
def Obligations.OperandAddresses32 : Prop :=
  ∀ (s : State) (reg rm index base : RegNum) (scale : BitVec 2) (b b0 b1 b2 b3 imm : Byte),
    let disp8 : Dword := b.signExtend 32
    let disp32 : Dword := b3 ++ b2 ++ b1 ++ b0
    let sib : Byte := scale ++ index ++ base
    let idx : Dword := if index = 4#3 then 0#32 else readR32 s index <<< scale.toNat
    let baseSeg : Seg := if base = 4#3 ∨ base = 5#3 then .ss else .ds
    let rmSeg : Seg := if rm = 5#3 then .ss else .ds
    (rm ≠ 4#3 → rm ≠ 5#3 → OperandAt .a32 [0#2 ++ reg ++ rm, imm] s .ds (readR32 s rm).toNat) ∧
    OperandAt .a32 [0#2 ++ reg ++ 5#3, b0, b1, b2, b3, imm] s .ds disp32.toNat ∧
    (rm ≠ 4#3 → OperandAt .a32 [1#2 ++ reg ++ rm, b, imm] s rmSeg (readR32 s rm + disp8).toNat) ∧
    (rm ≠ 4#3 → OperandAt .a32 [2#2 ++ reg ++ rm, b0, b1, b2, b3, imm] s rmSeg (readR32 s rm + disp32).toNat) ∧
    (base ≠ 5#3 → OperandAt .a32 [0#2 ++ reg ++ 4#3, sib, imm] s baseSeg (readR32 s base + idx).toNat) ∧
    (base = 5#3 → OperandAt .a32 [0#2 ++ reg ++ 4#3, sib, b0, b1, b2, b3, imm] s .ds (disp32 + idx).toNat) ∧
    OperandAt .a32 [1#2 ++ reg ++ 4#3, sib, b, imm] s baseSeg (readR32 s base + idx + disp8).toNat ∧
    OperandAt .a32 [2#2 ++ reg ++ 4#3, sib, b0, b1, b2, b3, imm] s baseSeg (readR32 s base + idx + disp32).toNat

/-- Segment and effective address of a 16-bit memory operand, row by row of R44's table, from the bytes. -/
def Obligations.OperandAddresses16 : Prop :=
  ∀ (s : State) (reg : RegNum) (b b0 b1 imm : Byte),
    let bx : Word := (readR32 s 3#3).extractLsb' 0 16
    let bp : Word := (readR32 s 5#3).extractLsb' 0 16
    let si : Word := (readR32 s 6#3).extractLsb' 0 16
    let di : Word := (readR32 s 7#3).extractLsb' 0 16
    let disp8 : Word := b.signExtend 16
    let disp16 : Word := b1 ++ b0
    let rows : List (RegNum × Word × Seg) :=
      [(0#3, bx + si, .ds), (1#3, bx + di, .ds), (2#3, bp + si, .ss), (3#3, bp + di, .ss),
       (4#3, si, .ds), (5#3, di, .ds), (6#3, bp, .ss), (7#3, bx, .ds)]
    (∀ row ∈ rows,
      (row.1 ≠ 6#3 → OperandAt .a16 [0#2 ++ reg ++ row.1, imm] s row.2.2 row.2.1.toNat) ∧
      OperandAt .a16 [1#2 ++ reg ++ row.1, b, imm] s row.2.2 (row.2.1 + disp8).toNat ∧
      OperandAt .a16 [2#2 ++ reg ++ row.1, b0, b1, imm] s row.2.2 (row.2.1 + disp16).toNat) ∧
    OperandAt .a16 [0#2 ++ reg ++ 6#3, b0, b1, imm] s .ds disp16.toNat

/-! ## The data path (spec/40_pinsrw.md R50 to R57) -/

/-- The mask tables are the source's twelve constants, in its order, and each selects one word (R50). -/
def Obligations.MasksAreTheSourcesConstants : Prop :=
  (List.range 4).map (mask 64) =
    [0x000000000000FFFF#64, 0x00000000FFFF0000#64, 0x0000FFFF00000000#64, 0xFFFF000000000000#64] ∧
  (List.range 8).map (mask 128) =
    [0x0000000000000000000000000000FFFF#128, 0x000000000000000000000000FFFF0000#128,
     0x00000000000000000000FFFF00000000#128, 0x0000000000000000FFFF000000000000#128,
     0x000000000000FFFF0000000000000000#128, 0x00000000FFFF00000000000000000000#128,
     0x0000FFFF000000000000000000000000#128, 0xFFFF0000000000000000000000000000#128] ∧
  (∀ w k i, i < w → (mask w k).getLsbD i = decide (16 * k ≤ i ∧ i < 16 * k + 16))

/-- The result of the Operation section, word by word: the selected word is the low word of the source, every other word is as it
was (R56). -/
def Obligations.InsertWordActsOnOneLane : Prop :=
  (∀ (dest : Qword) (source : Dword) (sel k : Nat), sel < 4 → k < 4 →
    lane (insertWord dest source sel) k = if k = sel then lane source 0 else lane dest k) ∧
  (∀ (dest : Oword) (source : Dword) (sel k : Nat), sel < 8 → k < 8 →
    lane (insertWord dest source sel) k = if k = sel then lane source 0 else lane dest k)

/-- `PINSRW mm, r32, imm8` completes where R78 says, and does what R52 says and nothing else. -/
def Obligations.MmR32InsertsTheLowWord : Prop :=
  ∀ (s : State) (d r : RegNum) (imm : Byte), StateReady .mmx s →
    ∃ t, exec (.pinsrwMmR32 d r imm) s = .next t ∧
      MmWordSet s t d (imm.toNat % 4) ((readR32 s r).extractLsb' 0 16) ∧
      t.pc = s.pc + 4 ∧ SameLaunch s t ∧ t.freeCount = s.freeCount

/-- `PINSRW mm, m16, imm8` completes where R78 says, and does what R53 says and nothing else; the word is little-endian (R26). -/
def Obligations.MmM16InsertsTheMemoryWord : Prop :=
  ∀ (s : State) (d : RegNum) (m : MemOperand) (imm : Byte) (pa0 pa1 : Nat),
    StateReady .mmx s → OperandReady s m pa0 pa1 → s.premises.memoryQuiescent = true →
    ∃ t, exec (.pinsrwMmM16 d m imm) s = .next t ∧
      MmWordSet s t d (imm.toNat % 4) (readByte s.mem pa1 ++ readByte s.mem pa0) ∧
      t.pc = s.pc + (encode (.pinsrwMmM16 d m imm)).length ∧ SameLaunch s t ∧ t.freeCount = s.freeCount

/-- `PINSRW xmm, r32, imm8` completes where R78 says, and does what R54 says and nothing else. -/
def Obligations.XmmR32InsertsTheLowWord : Prop :=
  ∀ (s : State) (d r : RegNum) (imm : Byte), StateReady .xmm s →
    ∃ t, exec (.pinsrwXmmR32 d r imm) s = .next t ∧
      XmmWordSet s t d (imm.toNat % 8) ((readR32 s r).extractLsb' 0 16) ∧
      t.pc = s.pc + 5 ∧ SameLaunch s t ∧ t.freeCount = s.freeCount

/-- `PINSRW xmm, m16, imm8` completes where R78 says, and does what R55 says and nothing else: two bytes are read here too. -/
def Obligations.XmmM16InsertsTheMemoryWord : Prop :=
  ∀ (s : State) (d : RegNum) (m : MemOperand) (imm : Byte) (pa0 pa1 : Nat),
    StateReady .xmm s → OperandReady s m pa0 pa1 → s.premises.memoryQuiescent = true →
    ∃ t, exec (.pinsrwXmmM16 d m imm) s = .next t ∧
      XmmWordSet s t d (imm.toNat % 8) (readByte s.mem pa1 ++ readByte s.mem pa0) ∧
      t.pc = s.pc + (encode (.pinsrwXmmM16 d m imm)).length ∧ SameLaunch s t ∧ t.freeCount = s.freeCount

/-- Where other agents may write memory, the memory forms complete with a word of two oracle bytes, taken separately, and every
other effect is as before (R35, D14). The oracle bytes are free values: log entry 18. -/
def Obligations.OracleBytesWhereMemoryIsNotQuiescent : Prop :=
  ∀ (s : State) (d : RegNum) (m : MemOperand) (imm : Byte) (pa0 pa1 : Nat),
    OperandReady s m pa0 pa1 → s.premises.memoryQuiescent = false →
    (StateReady .mmx s → ∃ t, exec (.pinsrwMmM16 d m imm) s = .next t ∧
      MmWordSet s t d (imm.toNat % 4) (Config.oracleByte (s.freeCount + 1) ++ Config.oracleByte s.freeCount) ∧
      t.pc = s.pc + (encode (.pinsrwMmM16 d m imm)).length ∧ SameLaunch s t ∧ t.freeCount = s.freeCount + 2) ∧
    (StateReady .xmm s → ∃ t, exec (.pinsrwXmmM16 d m imm) s = .next t ∧
      XmmWordSet s t d (imm.toNat % 8) (Config.oracleByte (s.freeCount + 1) ++ Config.oracleByte s.freeCount) ∧
      t.pc = s.pc + (encode (.pinsrwXmmM16 d m imm)).length ∧ SameLaunch s t ∧ t.freeCount = s.freeCount + 2)

/-- The count operand is the last byte; its 2 or 3 low bits select the word and its other bits do nothing (R45). -/
def Obligations.OnlyTheLowCountBitsMatter : Prop :=
  (∀ i : Instr, (encode i).getLast? = some i.count) ∧
  (∀ count : Byte, sel64 count = (count.extractLsb' 0 2).toNat ∧ sel128 count = (count.extractLsb' 0 3).toNat) ∧
  (∀ (i : Instr) (s : State) (imm : Byte), imm.toNat % i.form.words = i.count.toNat % i.form.words →
    exec (i.withCount imm) s = exec i s)

/-- The low word of a register source is what is copied, bits 31:16 have no effect on the result, and no general-purpose register is
written (R10). -/
def Obligations.HighHalfOfTheSourceRegisterIsUnused : Prop :=
  (∀ (f : Form) (d r : RegNum) (imm : Byte) (s : State) (v : Dword),
    v.extractLsb' 0 16 = (readR32 s r).extractLsb' 0 16 →
      exec (f.registerInstr d r imm) { s with r32 := s.r32.set r.toNat v } =
        mapNext (fun t => { t with r32 := s.r32.set r.toNat v }) (exec (f.registerInstr d r imm) s)) ∧
  (∀ (f : Form) (d r : RegNum) (imm : Byte) (s t : State), exec (f.registerInstr d r imm) s = .next t →
    match f with
    | .mmx => lane (readMm t d) (imm.toNat % 4) = (readR32 s r).extractLsb' 0 16
    | .xmm => lane (readXmm t d) (imm.toNat % 8) = (readR32 s r).extractLsb' 0 16) ∧
  (∀ (i : Instr) (s t : State), exec i s = .next t → t.r32 = s.r32)

/-- Two insertions into different words of one register commute: either order completes, in the same state (R57 item 6). Memory
quiescence is asked only where one of the two reads memory (D14). -/
def Obligations.InsertsIntoDifferentWordsCommute : Prop :=
  ∀ (i j : Instr) (s si sj : State), i.form = j.form → i.dest = j.dest → i.word ≠ j.word →
    (i.memOperand = none ∧ j.memOperand = none) ∨ s.premises.memoryQuiescent = true → exec i s = .next si → exec j s = .next sj →
    ∃ t, exec j si = .next t ∧ exec i sj = .next t

/-- Of two insertions into the same word the later wins (R57 item 6); with `j = i`, a second execution of one instruction changes
no vector register (item 5). Memory quiescence is asked only where the later one reads memory (D14); what the earlier one read
is overwritten. -/
def Obligations.LaterInsertIntoTheSameWordWins : Prop :=
  ∀ (i j : Instr) (s si sj : State), i.form = j.form → i.dest = j.dest → i.word = j.word →
    j.memOperand = none ∨ s.premises.memoryQuiescent = true → exec i s = .next si → exec j s = .next sj →
    ∃ t, exec j si = .next t ∧ t.mm = sj.mm ∧ t.xmm = sj.xmm ∧ t.pc = s.pc + i.length + j.length

/-! ## Frames -/

/-- What the 64-bit forms leave unchanged: every other MMX register, the XMM and general-purpose registers, the flags, every control
and feature bit, every launch parameter, every byte of memory (R15, R17, R30). The model's counter moves only where a memory
form reads oracle bytes. -/
def Obligations.FrameOfThe64BitForms : Prop :=
  ∀ (i : Instr) (s t : State), i.form = .mmx → exec i s = .next t →
    (∀ n, n ≠ i.dest → readMm t n = readMm s n) ∧ (∀ n, readXmm t n = readXmm s n) ∧ (∀ n, readR32 t n = readR32 s n) ∧
    SameLaunch s t ∧ (∀ a, readByte t.mem a = readByte s.mem a) ∧
    (i.memOperand = none ∨ s.premises.memoryQuiescent = true → t.freeCount = s.freeCount)

/-- The same for the 128-bit forms. -/
def Obligations.FrameOfThe128BitForms : Prop :=
  ∀ (i : Instr) (s t : State), i.form = .xmm → exec i s = .next t →
    (∀ n, n ≠ i.dest → readXmm t n = readXmm s n) ∧ (∀ n, readMm t n = readMm s n) ∧ (∀ n, readR32 t n = readR32 s n) ∧
    SameLaunch s t ∧ (∀ a, readByte t.mem a = readByte s.mem a) ∧
    (i.memOperand = none ∨ s.premises.memoryQuiescent = true → t.freeCount = s.freeCount)

/-- PINSRW reads no status flag and writes none (R17). -/
def Obligations.FlagsAreNeitherReadNorWritten : Prop :=
  (∀ (i : Instr) (s t : State), exec i s = .next t → t.eflags = s.eflags) ∧
  (∀ (i : Instr) (s : State) (v : Dword),
    exec i { s with eflags := v } = mapNext (fun t => { t with eflags := v }) (exec i s))

/-- No form writes memory (R30): where an instruction completes, every byte reads as before. -/
def Obligations.NoFormWritesMemory : Prop :=
  ∀ (i : Instr) (s t : State), exec i s = .next t → t.mem = s.mem ∧ ∀ a, readByte t.mem a = readByte s.mem a

/-- A completed instruction moves `pc` past its bytes; one that raises an exception is reported at its own `pc` (R16, R70). -/
def Obligations.PcMovesPastTheInstruction : Prop :=
  (∀ (i : Instr) (s t : State), exec i s = .next t → t.pc = s.pc + (encode i).length) ∧
  (∀ (i : Instr) (s : State) (e : Exception) (code : Option FaultCode) (pc : Nat),
    exec i s = .fault (.exception e code pc) → pc = s.pc)

/-- The forms with `r32` make no memory access: they raise no memory exception, and neither memory nor segments nor translation
matter to them; the forms with `m16` read two bytes and no others (R29). Where other agents write memory, the equality of the
two executions of an `m16` form is the model's choice and not R29: both take the same oracle bytes, which are tied to
`freeCount` alone (log entry 18). -/
def Obligations.WhichBytesOfMemoryAreRead : Prop :=
  (∀ (i : Instr) (s : State) (e : Exception) (code : Option FaultCode), i.memOperand = none → Raises i s e code →
    e ≠ .gp ∧ e ≠ .ss ∧ e ≠ .pf) ∧
  (∀ (i : Instr) (s : State) (mem : Memory) (segs : SegTable) (rules : List TranslationRule), i.memOperand = none →
    exec i { s with mem := mem, segs := segs, translation := rules } =
      mapNext (fun t => { t with mem := mem, segs := segs, translation := rules }) (exec i s)) ∧
  (∀ (i : Instr) (s : State) (m : MemOperand) (pa0 pa1 : Nat) (mem : Memory), i.memOperand = some m →
    OperandReady s m pa0 pa1 → readByte mem pa0 = readByte s.mem pa0 → readByte mem pa1 = readByte s.mem pa1 →
    exec i { s with mem := mem } = mapNext (fun t => { t with mem := mem }) (exec i s))

/-! ## When an instruction completes, and its exceptions (spec/60_exceptions.md, R78) -/

/-- A PINSRW instruction completes exactly when the rows of R78's table hold and, for a memory form, the model's conditions on
the operand. Where the premises that R78 adds by decision are asked is the model's choice: fetching, interrupts and alignment
checking by the step, for every form, and not by `exec` (log entries 19, 20, 21), but alignment checking off by the memory read
too (21); a usable segment in protected mode only (22); ordinary memory by the read (23); memory quiescence not at all, since
without it the word is oracle bytes (18). -/
def Obligations.CompletesExactlyWhenReady : Prop :=
  ∀ (i : Instr) (s : State), (∃ t, exec i s = .next t) ↔ Ready i s

/-- CR0.EM set, or a 64-bit form on a part without it, raises #UD, unless another applicable state exception is reported (R60,
R71). -/
def Obligations.EmulationBitRaisesUd : Prop :=
  ∀ (i : Instr) (s : State), (s.cr0EM = true ∨ (i.form = .mmx ∧ s.hasPinsrwMM = false)) →
    Raises i s .ud none ∨ (s.cr0TS = true ∧ Raises i s .nm none) ∨
      (i.form = .mmx ∧ s.x87Pending = true ∧ Raises i s .mf none)

/-- OSFXSR clear raises #UD in the 128-bit forms, in every mode, unless #NM applies too and is the one reported; the 64-bit forms
do not test it (R61). -/
def Obligations.OsfxsrClearRaisesUdIn128BitForms : Prop :=
  (∀ (i : Instr) (s : State), i.form = .xmm → s.cr4OSFXSR = false →
    Raises i s .ud none ∨ (s.cr0TS = true ∧ Raises i s .nm none)) ∧
  (∀ (i : Instr) (s : State) (b : Bool), i.form = .mmx →
    exec i { s with cr4OSFXSR := b } = mapNext (fun t => { t with cr4OSFXSR := b }) (exec i s))

/-- The SSE2 feature flag clear raises #UD in the 128-bit forms, in every mode, unless #NM applies too and is the one reported; the
64-bit forms do not test it (R62). -/
def Obligations.Sse2ClearRaisesUdIn128BitForms : Prop :=
  (∀ (i : Instr) (s : State), i.form = .xmm → s.cpuidSSE2 = false →
    Raises i s .ud none ∨ (s.cr0TS = true ∧ Raises i s .nm none)) ∧
  (∀ (i : Instr) (s : State) (b : Bool), i.form = .mmx →
    exec i { s with cpuidSSE2 := b } = mapNext (fun t => { t with cpuidSSE2 := b }) (exec i s))

/-- CR0.TS set raises #NM in both forms and every mode, unless another applicable state exception is reported (R63, R71). -/
def Obligations.TaskSwitchedBitRaisesNm : Prop :=
  ∀ (i : Instr) (s : State), s.cr0TS = true →
    Raises i s .nm none ∨ (UdApplies i.form s ∧ Raises i s .ud none) ∨
      (i.form = .mmx ∧ s.x87Pending = true ∧ Raises i s .mf none)

/-- A pending x87 exception raises #MF in the 64-bit forms, in every mode, unless another applicable state exception is reported;
the 128-bit forms test neither it nor whether the part has the 64-bit form (R64, D12, D17). -/
def Obligations.PendingX87RaisesMfIn64BitForms : Prop :=
  (∀ (i : Instr) (s : State), i.form = .mmx → s.x87Pending = true →
    Raises i s .mf none ∨ (s.cr0TS = true ∧ Raises i s .nm none) ∨ (UdApplies .mmx s ∧ Raises i s .ud none)) ∧
  (∀ (i : Instr) (s : State) (b c : Bool), i.form = .xmm →
    exec i { s with x87Pending := b, hasPinsrwMM := c } =
      mapNext (fun t => { t with x87Pending := b, hasPinsrwMM := c }) (exec i s))

/-- Where any state check applies, one of the state exceptions is raised, whatever the memory operand (R51, R71). -/
def Obligations.StateChecksComeBeforeMemory : Prop :=
  ∀ (i : Instr) (s : State), ¬ StateReady i.form s →
    (UdApplies i.form s ∧ Raises i s .ud none) ∨ (s.cr0TS = true ∧ Raises i s .nm none) ∨
      (i.form = .mmx ∧ s.x87Pending = true ∧ Raises i s .mf none)

/-- Every exception that is reported applies: its condition holds, its error code is the one R59 gives it, and what R71 tests
before it did not apply. -/
def Obligations.ReportedExceptionApplies : Prop :=
  ∀ (i : Instr) (s : State) (e : Exception) (code : Option FaultCode), Raises i s e code →
    match e with
    | .ud => code = none ∧ UdApplies i.form s
    | .nm => code = none ∧ s.cr0TS = true
    | .mf => code = none ∧ i.form = .mmx ∧ s.x87Pending = true
    | .gp => code = some 0 ∧ StateReady i.form s ∧ ∃ m, i.memOperand = some m ∧
        ((s.mode = .protectedMode ∧ (operandAddress s m).1 ≠ .ss ∧
            segLimitOK s (operandAddress s m).1 (operandAddress s m).2 2 = false) ∨
          (s.mode ≠ .protectedMode ∧ 0xFFFF < (operandAddress s m).2 + 1))
    | .ss => code = some 0 ∧ StateReady i.form s ∧ s.mode = .protectedMode ∧ ∃ m, i.memOperand = some m ∧
        (operandAddress s m).1 = .ss ∧ segLimitOK s .ss (operandAddress s m).2 2 = false
    | .pf => StateReady i.form s ∧ s.mode ≠ .realAddress ∧ ∃ m c, i.memOperand = some m ∧ code = some c ∧
        LimitReady s (operandAddress s m).1 (operandAddress s m).2 ∧
        translateOperand s (operandAddress s m).1 (operandAddress s m).2 = .pageFault c

/-- In protected mode an operand outside the limit of CS, DS, ES, FS or GS raises #GP(0) (R65). -/
def Obligations.LimitViolationRaisesGpInProtectedMode : Prop :=
  ∀ (i : Instr) (s : State) (m : MemOperand) (seg : Seg) (ea : Nat), i.memOperand = some m →
    operandAddress s m = (seg, ea) → StateReady i.form s → PremisesReady s seg → s.mode = .protectedMode →
    seg ∈ [Seg.cs, .ds, .es, .fs, .gs] → segLimitOK s seg ea 2 = false → Raises i s .gp (some 0)

/-- In protected mode an operand outside the SS limit raises #SS(0); in the other modes there is no #SS, and a violation raises
#GP(0) whatever the segment (R66). -/
def Obligations.SsLimitViolationRaisesSsInProtectedModeOnly : Prop :=
  (∀ (i : Instr) (s : State) (m : MemOperand) (ea : Nat), i.memOperand = some m →
    operandAddress s m = (.ss, ea) → StateReady i.form s → PremisesReady s .ss → s.mode = .protectedMode →
    segLimitOK s .ss ea 2 = false → Raises i s .ss (some 0)) ∧
  (∀ (i : Instr) (s : State) (code : Option FaultCode), s.mode ≠ .protectedMode → ¬ Raises i s .ss code) ∧
  (∀ (i : Instr) (s : State) (m : MemOperand) (seg : Seg) (ea : Nat), i.memOperand = some m →
    operandAddress s m = (seg, ea) → StateReady i.form s → PremisesReady s seg → s.mode ≠ .protectedMode →
    0xFFFF < ea + 1 → Raises i s .gp (some 0))

/-- In real-address and virtual-8086 mode an operand with any part outside 0 to FFFFH raises #GP(0); with 16-bit addressing the only
such operand is at FFFFH (R68). -/
def Obligations.OperandOutsideFfffRaisesGpOutsideProtectedMode : Prop :=
  (∀ (i : Instr) (s : State) (m : MemOperand), i.memOperand = some m → StateReady i.form s →
    PremisesReady s (operandAddress s m).1 →
    s.mode = .realAddress ∨ s.mode = .virtual8086 →
    0xFFFF < (operandAddress s m).2 ∨ 0xFFFF < (operandAddress s m).2 + 1 → Raises i s .gp (some 0)) ∧
  (∀ (s : State) (m : Mem16),
    (0xFFFF < (operandAddress s (.m16 m)).2 ∨ 0xFFFF < (operandAddress s (.m16 m)).2 + 1) ↔
      (operandAddress s (.m16 m)).2 = 0xFFFF)

/-- In protected and virtual-8086 mode an operand inside its limit that Translate page-faults raises #PF with Translate's code; in
real-address mode there is no #PF (R67). -/
def Obligations.PageFaultRaisesPfOutsideRealAddressMode : Prop :=
  (∀ (i : Instr) (s : State) (m : MemOperand) (code : FaultCode), i.memOperand = some m → StateReady i.form s →
    PremisesReady s (operandAddress s m).1 →
    LimitReady s (operandAddress s m).1 (operandAddress s m).2 →
    s.mode = .protectedMode ∨ s.mode = .virtual8086 →
    translateOperand s (operandAddress s m).1 (operandAddress s m).2 = .pageFault code → Raises i s .pf (some code)) ∧
  (∀ (i : Instr) (s : State) (code : Option FaultCode), s.mode = .realAddress → ¬ Raises i s .pf code)

/-- The limit test covers every byte of the operand: for an expand-up segment `ea + n - 1 <= L` and no wrap past the address size,
for a segment given by its offsets every byte in one of the ranges (R34, C6; log entry 11). -/
def Obligations.LimitTestCoversEveryByte : Prop :=
  ∀ (a : AddrSize) (ea n : Nat), 0 < n →
    (∀ l, (SegLimit.expandUp l).covers a ea n = true ↔
      ea + n - 1 ≤ l ∧ ea + n - 1 < (match a with | .a16 => 2 ^ 16 | .a32 => 2 ^ 32)) ∧
    (∀ ranges, (SegLimit.offsets ranges).covers a ea n = true ↔
      ∀ k, k < n → ∃ r ∈ ranges, r.1 ≤ ea + k ∧ ea + k ≤ r.2)

/-- Where a premise about the operand does not hold, the memory forms are refused by name: with alignment checking on (D2, U8,
R31), through a segment not usable in protected mode (U3), for an operand that is not ordinary memory (D14). How and in which
order is the model's choice: log entries 21, 22, 23. -/
def Obligations.UnmetOperandPremisesAreRefused : Prop :=
  ∀ (i : Instr) (s : State) (m : MemOperand) (seg : Seg) (ea : Nat), i.memOperand = some m →
    operandAddress s m = (seg, ea) → StateReady i.form s →
    (s.premises.alignmentCheckingOff = false → exec i s = .refused .alignmentChecking) ∧
    (s.premises.alignmentCheckingOff = true → s.mode = .protectedMode →
      (s.segs.get seg).usable = false → exec i s = .refused (.segmentNotUsable seg)) ∧
    (PremisesReady s seg → LimitReady s seg ea → translateOperand s seg ea = .device → exec i s = .refused .deviceMemory)

/-! ## Steps and runs (spec/70_reset_and_hazards.md) -/

/-- On a platform whose launch is not refused, when the bytes at `pc` decode to an instruction, the step is `exec` of it at that
state, and nothing besides (R51, R79). -/
def Obligations.StepRunsTheDecodedInstruction : Prop :=
  ∀ (s : State) (i : Instr) (rest : List Byte), LaunchReady s →
    decode s.addrSize (s.text.drop s.pc) = .ok (i, rest) → step s = exec i s

/-- On a platform whose launch is not refused, an instruction that stands in the text at `pc` is the one the step runs, whatever
text stands before and after it (R16, R37, R80). -/
def Obligations.InstructionInTheTextRuns : Prop :=
  ∀ (s : State) (i : Instr) (before after : List Byte), LaunchReady s →
    i.wellFormed = true → i.fits s.addrSize = true →
    s.text = before ++ encode i ++ after → s.pc = before.length → step s = exec i s

/-- A launch without a premise about the whole run is refused, whatever its text: fetching, interrupts, alignment checking off
(D15, D16, D2); the run ends normally at the end of the text; bytes that do not decode are refused (R80). How and in which order
a step says these is the model's choice: log entries 5, 19, 20, 21. -/
def Obligations.StepStopsWhereNoInstructionRuns : Prop :=
  ∀ s : State,
    (s.premises.textFetchable = false → step s = .refused .textNotFetchable) ∧
    (s.premises.textFetchable = true → s.premises.interruptsHarmless = false → step s = .refused .interruptPossible) ∧
    (s.premises.textFetchable = true → s.premises.interruptsHarmless = true → s.premises.alignmentCheckingOff = false →
      step s = .refused .alignmentChecking) ∧
    (LaunchReady s →
      (s.Finished → step s = .refused .endOfRun) ∧
      (¬ s.Finished → ∀ e, decode s.addrSize (s.text.drop s.pc) = .error e → step s = .refused (.undecodable e)))

/-- Fetch reads the program text and never data memory (R36). -/
def Obligations.FetchIgnoresDataMemory : Prop :=
  ∀ (s : State) (mem : Memory), fetch { s with mem := mem } = fetch s

/-- Every step keeps the invariant: memory in canonical form, `pc` not past the end of the text; and it moves `pc` forward (R16,
R80). -/
def Obligations.StepKeepsTheInvariant : Prop :=
  ∀ s t : State, s.Inv → step s = .next t → t.Inv ∧ s.pc < t.pc

/-- The state a launch begins in meets the invariant. -/
def Obligations.ResetMeetsTheInvariant : Prop := State.reset.Inv

/-- A launch begins at offset 0 of the text (R77). Every other value is the model's choice, in the absence of a reset value in the
spec (R24): log entries 8, 9, 11, 12, 14 to 22, 24, 28 and 31. -/
def Obligations.ResetIsTheLoggedLaunchState : Prop :=
  State.reset.pc = 0 ∧
  (∀ n, readR32 State.reset n = 0#32 ∧ readMm State.reset n = 0#64 ∧ readXmm State.reset n = 0#128) ∧
  State.reset.eflags = 2#32 ∧ StateReady .mmx State.reset ∧ StateReady .xmm State.reset ∧
  State.reset.mode = .protectedMode ∧ State.reset.addrSize = .a32 ∧
  (∀ seg, State.reset.segs.get seg = ⟨true, .expandUp 0xFFFFFFFF⟩) ∧ State.reset.translation = [] ∧
  (∀ a, readByte State.reset.mem a = 0#8) ∧ State.reset.text = [] ∧ State.reset.premises = ⟨true, true, true, true⟩

/-- No PINSRW changes a launch premise, so one established at launch holds for the whole of a run, of any number of steps and from
any state; nor does a run change a general-purpose register, a flag, memory or the text (R15, R78). -/
def Obligations.RunsKeepTheLaunchPremises : Prop :=
  ∀ (k : Nat) (s t : State), Host.Core.run Sys2Proof.core k s = .next t → SameLaunch s t

/-- Each step of a run moves `pc` forward by 4 to 10 bytes, so a run from a state that meets the invariant stays inside the text and
has at most a quarter as many steps as the text has bytes (R46, R80). -/
def Obligations.RunsAdvanceThroughTheText : Prop :=
  ∀ (k : Nat) (s t : State), s.Inv → Host.Core.run Sys2Proof.core k s = .next t →
    t.Inv ∧ s.pc + 4 * k ≤ t.pc ∧ t.pc ≤ s.pc + 10 * k ∧ 4 * k ≤ s.text.length
end

