-- ==== Sys2Proof/Laws/Decode.lean ====
section
/-! SUPPORT. The fields of a packed byte, and the bytes of a displacement (spec/30_encoding.md R40, R43, R44). -/

namespace Sys2Proof

/-! ## ModRM and SIB -/

@[simp] theorem modField_packByte (hi : BitVec 2) (mid lo : BitVec 3) : modField (packByte hi mid lo) = hi := by
  revert hi mid lo; decide

@[simp] theorem regField_packByte (hi : BitVec 2) (mid lo : BitVec 3) : regField (packByte hi mid lo) = mid := by
  revert hi mid lo; decide

@[simp] theorem rmField_packByte (hi : BitVec 2) (mid lo : BitVec 3) : rmField (packByte hi mid lo) = lo := by
  revert hi mid lo; decide

/-- A byte is made of its three fields. -/
theorem packByte_fields (b : Byte) : packByte (modField b) (regField b) (rmField b) = b := by
  revert b; decide

/-! ## Bytes, the least significant first -/

theorem getLsbD_le16 (b0 b1 : Byte) (i : Nat) :
    (le16 b0 b1).getLsbD i = if i < 8 then b0.getLsbD i else b1.getLsbD (i - 8) := by
  show (b1 ++ b0 : BitVec (8 + 8)).getLsbD i = _
  rw [BitVec.getLsbD_append]

theorem getLsbD_le32 (b0 b1 b2 b3 : Byte) (i : Nat) :
    (le32 b0 b1 b2 b3).getLsbD i =
      if i < 8 then b0.getLsbD i else if i < 16 then b1.getLsbD (i - 8)
      else if i < 24 then b2.getLsbD (i - 16) else b3.getLsbD (i - 24) := by
  show (((b3 ++ b2 : BitVec (8 + 8)) ++ b1 : BitVec (8 + 8 + 8)) ++ b0 : BitVec (8 + 8 + 8 + 8)).getLsbD i = _
  simp only [BitVec.getLsbD_append]
  grind

@[simp] theorem le16_extract (d : Word) : le16 (d.extractLsb' 0 8) (d.extractLsb' 8 8) = d := by
  apply BitVec.eq_of_getLsbD_eq
  intro i h
  simp only [getLsbD_le16, BitVec.getLsbD_extractLsb']
  grind

@[simp] theorem le32_extract (d : Dword) :
    le32 (d.extractLsb' 0 8) (d.extractLsb' 8 8) (d.extractLsb' 16 8) (d.extractLsb' 24 8) = d := by
  apply BitVec.eq_of_getLsbD_eq
  intro i h
  simp only [getLsbD_le32, BitVec.getLsbD_extractLsb']
  grind

@[simp] theorem bytes16_le16 (b0 b1 : Byte) : bytes16 (le16 b0 b1) = [b0, b1] := by
  simp only [bytes16, List.cons.injEq, and_true]
  refine ⟨?_, ?_⟩ <;> apply BitVec.eq_of_getLsbD_eq <;> intro i h <;>
    simp only [getLsbD_le16, BitVec.getLsbD_extractLsb'] <;> grind

@[simp] theorem bytes32_le32 (b0 b1 b2 b3 : Byte) : bytes32 (le32 b0 b1 b2 b3) = [b0, b1, b2, b3] := by
  simp only [bytes32, List.cons.injEq, and_true]
  refine ⟨?_, ?_, ?_, ?_⟩ <;> apply BitVec.eq_of_getLsbD_eq <;> intro i h <;>
    simp only [getLsbD_le32, BitVec.getLsbD_extractLsb'] <;> grind

end Sys2Proof
end

