-- ==== Sys2Proof/Laws/State.lean ====
section
/-! SUPPORT. For each update of the state, what each field is afterwards. -/

namespace Sys2Proof.Machine

open Sys2Proof

/-! ## writeMm -/

@[simp] theorem writeMm_r32 (s : State) (n : RegNum) (v : Qword) : (writeMm s n v).r32 = s.r32 := rfl
@[simp] theorem writeMm_mm (s : State) (n : RegNum) (v : Qword) : (writeMm s n v).mm = s.mm.set n.toNat v := rfl
@[simp] theorem writeMm_xmm (s : State) (n : RegNum) (v : Qword) : (writeMm s n v).xmm = s.xmm := rfl
@[simp] theorem writeMm_pc (s : State) (n : RegNum) (v : Qword) : (writeMm s n v).pc = s.pc := rfl
@[simp] theorem writeMm_eflags (s : State) (n : RegNum) (v : Qword) : (writeMm s n v).eflags = s.eflags := rfl
@[simp] theorem writeMm_cr0EM (s : State) (n : RegNum) (v : Qword) : (writeMm s n v).cr0EM = s.cr0EM := rfl
@[simp] theorem writeMm_cr0TS (s : State) (n : RegNum) (v : Qword) : (writeMm s n v).cr0TS = s.cr0TS := rfl
@[simp] theorem writeMm_cr4OSFXSR (s : State) (n : RegNum) (v : Qword) : (writeMm s n v).cr4OSFXSR = s.cr4OSFXSR := rfl
@[simp] theorem writeMm_cpuidSSE2 (s : State) (n : RegNum) (v : Qword) : (writeMm s n v).cpuidSSE2 = s.cpuidSSE2 := rfl
@[simp] theorem writeMm_hasPinsrwMM (s : State) (n : RegNum) (v : Qword) : (writeMm s n v).hasPinsrwMM = s.hasPinsrwMM := rfl
@[simp] theorem writeMm_x87Pending (s : State) (n : RegNum) (v : Qword) : (writeMm s n v).x87Pending = s.x87Pending := rfl
@[simp] theorem writeMm_mode (s : State) (n : RegNum) (v : Qword) : (writeMm s n v).mode = s.mode := rfl
@[simp] theorem writeMm_addrSize (s : State) (n : RegNum) (v : Qword) : (writeMm s n v).addrSize = s.addrSize := rfl
@[simp] theorem writeMm_segs (s : State) (n : RegNum) (v : Qword) : (writeMm s n v).segs = s.segs := rfl
@[simp] theorem writeMm_translation (s : State) (n : RegNum) (v : Qword) : (writeMm s n v).translation = s.translation := rfl
@[simp] theorem writeMm_mem (s : State) (n : RegNum) (v : Qword) : (writeMm s n v).mem = s.mem := rfl
@[simp] theorem writeMm_text (s : State) (n : RegNum) (v : Qword) : (writeMm s n v).text = s.text := rfl
@[simp] theorem writeMm_premises (s : State) (n : RegNum) (v : Qword) : (writeMm s n v).premises = s.premises := rfl
@[simp] theorem writeMm_freeCount (s : State) (n : RegNum) (v : Qword) : (writeMm s n v).freeCount = s.freeCount := rfl

/-! ## writeXmm -/

@[simp] theorem writeXmm_r32 (s : State) (n : RegNum) (v : Oword) : (writeXmm s n v).r32 = s.r32 := rfl
@[simp] theorem writeXmm_mm (s : State) (n : RegNum) (v : Oword) : (writeXmm s n v).mm = s.mm := rfl
@[simp] theorem writeXmm_xmm (s : State) (n : RegNum) (v : Oword) : (writeXmm s n v).xmm = s.xmm.set n.toNat v := rfl
@[simp] theorem writeXmm_pc (s : State) (n : RegNum) (v : Oword) : (writeXmm s n v).pc = s.pc := rfl
@[simp] theorem writeXmm_eflags (s : State) (n : RegNum) (v : Oword) : (writeXmm s n v).eflags = s.eflags := rfl
@[simp] theorem writeXmm_cr0EM (s : State) (n : RegNum) (v : Oword) : (writeXmm s n v).cr0EM = s.cr0EM := rfl
@[simp] theorem writeXmm_cr0TS (s : State) (n : RegNum) (v : Oword) : (writeXmm s n v).cr0TS = s.cr0TS := rfl
@[simp] theorem writeXmm_cr4OSFXSR (s : State) (n : RegNum) (v : Oword) : (writeXmm s n v).cr4OSFXSR = s.cr4OSFXSR := rfl
@[simp] theorem writeXmm_cpuidSSE2 (s : State) (n : RegNum) (v : Oword) : (writeXmm s n v).cpuidSSE2 = s.cpuidSSE2 := rfl
@[simp] theorem writeXmm_hasPinsrwMM (s : State) (n : RegNum) (v : Oword) : (writeXmm s n v).hasPinsrwMM = s.hasPinsrwMM := rfl
@[simp] theorem writeXmm_x87Pending (s : State) (n : RegNum) (v : Oword) : (writeXmm s n v).x87Pending = s.x87Pending := rfl
@[simp] theorem writeXmm_mode (s : State) (n : RegNum) (v : Oword) : (writeXmm s n v).mode = s.mode := rfl
@[simp] theorem writeXmm_addrSize (s : State) (n : RegNum) (v : Oword) : (writeXmm s n v).addrSize = s.addrSize := rfl
@[simp] theorem writeXmm_segs (s : State) (n : RegNum) (v : Oword) : (writeXmm s n v).segs = s.segs := rfl
@[simp] theorem writeXmm_translation (s : State) (n : RegNum) (v : Oword) : (writeXmm s n v).translation = s.translation := rfl
@[simp] theorem writeXmm_mem (s : State) (n : RegNum) (v : Oword) : (writeXmm s n v).mem = s.mem := rfl
@[simp] theorem writeXmm_text (s : State) (n : RegNum) (v : Oword) : (writeXmm s n v).text = s.text := rfl
@[simp] theorem writeXmm_premises (s : State) (n : RegNum) (v : Oword) : (writeXmm s n v).premises = s.premises := rfl
@[simp] theorem writeXmm_freeCount (s : State) (n : RegNum) (v : Oword) : (writeXmm s n v).freeCount = s.freeCount := rfl

/-! ## advancePc -/

@[simp] theorem advancePc_r32 (s : State) (len : Nat) : (advancePc s len).r32 = s.r32 := rfl
@[simp] theorem advancePc_mm (s : State) (len : Nat) : (advancePc s len).mm = s.mm := rfl
@[simp] theorem advancePc_xmm (s : State) (len : Nat) : (advancePc s len).xmm = s.xmm := rfl
@[simp] theorem advancePc_pc (s : State) (len : Nat) : (advancePc s len).pc = s.pc + len := rfl
@[simp] theorem advancePc_eflags (s : State) (len : Nat) : (advancePc s len).eflags = s.eflags := rfl
@[simp] theorem advancePc_cr0EM (s : State) (len : Nat) : (advancePc s len).cr0EM = s.cr0EM := rfl
@[simp] theorem advancePc_cr0TS (s : State) (len : Nat) : (advancePc s len).cr0TS = s.cr0TS := rfl
@[simp] theorem advancePc_cr4OSFXSR (s : State) (len : Nat) : (advancePc s len).cr4OSFXSR = s.cr4OSFXSR := rfl
@[simp] theorem advancePc_cpuidSSE2 (s : State) (len : Nat) : (advancePc s len).cpuidSSE2 = s.cpuidSSE2 := rfl
@[simp] theorem advancePc_hasPinsrwMM (s : State) (len : Nat) : (advancePc s len).hasPinsrwMM = s.hasPinsrwMM := rfl
@[simp] theorem advancePc_x87Pending (s : State) (len : Nat) : (advancePc s len).x87Pending = s.x87Pending := rfl
@[simp] theorem advancePc_mode (s : State) (len : Nat) : (advancePc s len).mode = s.mode := rfl
@[simp] theorem advancePc_addrSize (s : State) (len : Nat) : (advancePc s len).addrSize = s.addrSize := rfl
@[simp] theorem advancePc_segs (s : State) (len : Nat) : (advancePc s len).segs = s.segs := rfl
@[simp] theorem advancePc_translation (s : State) (len : Nat) : (advancePc s len).translation = s.translation := rfl
@[simp] theorem advancePc_mem (s : State) (len : Nat) : (advancePc s len).mem = s.mem := rfl
@[simp] theorem advancePc_text (s : State) (len : Nat) : (advancePc s len).text = s.text := rfl
@[simp] theorem advancePc_premises (s : State) (len : Nat) : (advancePc s len).premises = s.premises := rfl
@[simp] theorem advancePc_freeCount (s : State) (len : Nat) : (advancePc s len).freeCount = s.freeCount := rfl

/-! ## takeFree -/

@[simp] theorem takeFree_r32 (s : State) (n : Nat) : (takeFree s n).r32 = s.r32 := rfl
@[simp] theorem takeFree_mm (s : State) (n : Nat) : (takeFree s n).mm = s.mm := rfl
@[simp] theorem takeFree_xmm (s : State) (n : Nat) : (takeFree s n).xmm = s.xmm := rfl
@[simp] theorem takeFree_pc (s : State) (n : Nat) : (takeFree s n).pc = s.pc := rfl
@[simp] theorem takeFree_eflags (s : State) (n : Nat) : (takeFree s n).eflags = s.eflags := rfl
@[simp] theorem takeFree_cr0EM (s : State) (n : Nat) : (takeFree s n).cr0EM = s.cr0EM := rfl
@[simp] theorem takeFree_cr0TS (s : State) (n : Nat) : (takeFree s n).cr0TS = s.cr0TS := rfl
@[simp] theorem takeFree_cr4OSFXSR (s : State) (n : Nat) : (takeFree s n).cr4OSFXSR = s.cr4OSFXSR := rfl
@[simp] theorem takeFree_cpuidSSE2 (s : State) (n : Nat) : (takeFree s n).cpuidSSE2 = s.cpuidSSE2 := rfl
@[simp] theorem takeFree_hasPinsrwMM (s : State) (n : Nat) : (takeFree s n).hasPinsrwMM = s.hasPinsrwMM := rfl
@[simp] theorem takeFree_x87Pending (s : State) (n : Nat) : (takeFree s n).x87Pending = s.x87Pending := rfl
@[simp] theorem takeFree_mode (s : State) (n : Nat) : (takeFree s n).mode = s.mode := rfl
@[simp] theorem takeFree_addrSize (s : State) (n : Nat) : (takeFree s n).addrSize = s.addrSize := rfl
@[simp] theorem takeFree_segs (s : State) (n : Nat) : (takeFree s n).segs = s.segs := rfl
@[simp] theorem takeFree_translation (s : State) (n : Nat) : (takeFree s n).translation = s.translation := rfl
@[simp] theorem takeFree_mem (s : State) (n : Nat) : (takeFree s n).mem = s.mem := rfl
@[simp] theorem takeFree_text (s : State) (n : Nat) : (takeFree s n).text = s.text := rfl
@[simp] theorem takeFree_premises (s : State) (n : Nat) : (takeFree s n).premises = s.premises := rfl
@[simp] theorem takeFree_freeCount (s : State) (n : Nat) : (takeFree s n).freeCount = s.freeCount + n := rfl

end Sys2Proof.Machine
end

