-- ==== Sys2Proof/Laws/Ops.lean ====
section
/-! SUPPORT. One lemma for each shared operation that says once what it can do. -/

namespace Sys2Proof.Machine

open Sys2Proof

/-! ## Registers -/

theorem readMm_writeMm (s : State) (n k : RegNum) (v : Qword) :
    readMm (writeMm s n v) k = if k = n then v else readMm s k := by
  by_cases h : k = n
  · subst h; simp [readMm]
  · have : n.toNat ≠ k.toNat := fun e => h (BitVec.eq_of_toNat_eq e.symm)
    simp [readMm, h, this]

theorem readXmm_writeXmm (s : State) (n k : RegNum) (v : Oword) :
    readXmm (writeXmm s n v) k = if k = n then v else readXmm s k := by
  by_cases h : k = n
  · subst h; simp [readXmm]
  · have : n.toNat ≠ k.toNat := fun e => h (BitVec.eq_of_toNat_eq e.symm)
    simp [readXmm, h, this]

@[simp] theorem readMm_advancePc (s : State) (len : Nat) (k : RegNum) :
    readMm (advancePc s len) k = readMm s k := rfl
@[simp] theorem readXmm_advancePc (s : State) (len : Nat) (k : RegNum) :
    readXmm (advancePc s len) k = readXmm s k := rfl
@[simp] theorem readMm_takeFree (s : State) (n : Nat) (k : RegNum) : readMm (takeFree s n) k = readMm s k := rfl
@[simp] theorem readXmm_takeFree (s : State) (n : Nat) (k : RegNum) : readXmm (takeFree s n) k = readXmm s k := rfl
@[simp] theorem readMm_writeXmm (s : State) (n k : RegNum) (v : Oword) :
    readMm (writeXmm s n v) k = readMm s k := rfl
@[simp] theorem readXmm_writeMm (s : State) (n k : RegNum) (v : Qword) :
    readXmm (writeMm s n v) k = readXmm s k := rfl

/-! ## Sequencing -/

theorem andThen_eq_next {α β : Type} {x : Result α} {f : α → Result β} {b : β} (h : andThen x f = .next b) :
    ∃ a, x = .next a ∧ f a = .next b := by
  cases x with
  | next a => exact ⟨a, rfl, h⟩
  | fault r => cases h
  | refused r => cases h

theorem andThen_eq_fault {α β : Type} {x : Result α} {f : α → Result β} {r : Fault} (h : andThen x f = .fault r) :
    x = .fault r ∨ ∃ a, x = .next a ∧ f a = .fault r := by
  cases x with
  | next a => exact .inr ⟨a, rfl, h⟩
  | fault r' => exact .inl (by cases h; rfl)
  | refused r' => cases h

/-! ## The state checks -/

/-- An exception that is reported is one of the applicable ones. -/
theorem reported_mem {choice : Nat} {es : List Exception} {e : Exception} (h : reported choice es = some e) : e ∈ es := by
  match es, h with
  | [_], h => cases h; exact List.mem_singleton.mpr rfl
  | _ :: _ :: _, h => exact List.mem_of_getElem? h

/-- Where any exception applies, one is reported. -/
theorem reported_isSome (choice : Nat) {es : List Exception} (h : es ≠ []) : ∃ e, reported choice es = some e := by
  match es, h with
  | [e], _ => exact ⟨e, rfl⟩
  | a :: b :: rest, _ => exact ⟨_, List.getElem?_eq_getElem (Nat.mod_lt choice (by simp))⟩

theorem mem_stateExceptions {f : Form} {s : State} {e : Exception} :
    e ∈ stateExceptions f s ↔
      (e = .ud ∧ udCondition f s = true) ∨ (e = .nm ∧ nmCondition s = true) ∨ (e = .mf ∧ mfCondition f s = true) := by
  simp [stateExceptions, and_comm]

/-- The state checks go on, or raise an applicable exception without an error code. -/
theorem stateChecks_cases (f : Form) (s : State) :
    (stateChecks f s = .next () ∧ stateExceptions f s = []) ∨
      ∃ e, e ∈ stateExceptions f s ∧ stateChecks f s = .fault (.exception e none s.pc) := by
  by_cases h : stateExceptions f s = []
  · exact .inl ⟨by simp [stateChecks, h, reported], h⟩
  · obtain ⟨e, he⟩ := reported_isSome
      (Config.exceptionChoice s.freeCount (udCondition f s) (nmCondition s) (mfCondition f s)) h
    exact .inr ⟨e, reported_mem he, by simp [stateChecks, he, raise]⟩

/-- The state checks answer alike where the same exceptions apply, at one `pc` and one value of the counter. -/
theorem stateChecks_congr {f f' : Form} {s s' : State} (he : stateExceptions f' s' = stateExceptions f s)
    (hc : s'.freeCount = s.freeCount) (hp : s'.pc = s.pc) : stateChecks f' s' = stateChecks f s := by
  have hu : udCondition f' s' = udCondition f s ∧ nmCondition s' = nmCondition s ∧ mfCondition f' s' = mfCondition f s := by
    unfold stateExceptions at he
    revert he
    generalize udCondition f' s' = a, udCondition f s = b, nmCondition s' = c, nmCondition s = d, mfCondition f' s' = e,
      mfCondition f s = g
    revert a b c d e g
    decide
  unfold stateChecks raise
  rw [he, hc, hp, hu.1, hu.2.1, hu.2.2]

/-! ## The memory read -/

/-- Everything `memRead` can answer, in the order of its checks. -/
theorem memRead_cases (s : State) (seg : Seg) (ea : Nat) :
    (∃ r, operandRefusal s seg = some r ∧ memRead s seg ea = .refused r) ∨
    (operandRefusal s seg = none ∧ ∃ e, limitException s seg ea = some e ∧
      memRead s seg ea = .fault (.exception e (some 0) s.pc)) ∨
    (operandRefusal s seg = none ∧ limitException s seg ea = none ∧
      ((∃ code, translateOperand s seg ea = .pageFault code ∧ memRead s seg ea = .fault (.exception .pf (some code) s.pc)) ∨
        (translateOperand s seg ea = .device ∧ memRead s seg ea = .refused .deviceMemory) ∨
        ∃ pa0 pa1, translateOperand s seg ea = .physical pa0 pa1 ∧ memRead s seg ea = .next (loadWord s pa0 pa1))) := by
  cases hr : operandRefusal s seg with
  | some r => exact .inl ⟨r, rfl, by simp [memRead, hr]⟩
  | none =>
    cases hl : limitException s seg ea with
    | some e => exact .inr (.inl ⟨rfl, e, rfl, by simp [memRead, hr, hl, raise]⟩)
    | none =>
      refine .inr (.inr ⟨rfl, rfl, ?_⟩)
      cases ht : translateOperand s seg ea with
      | pageFault code => exact .inl ⟨code, rfl, by simp [memRead, hr, hl, ht, raise]⟩
      | device => exact .inr (.inl ⟨rfl, by simp [memRead, hr, hl, ht]⟩)
      | physical pa0 pa1 => exact .inr (.inr ⟨pa0, pa1, rfl, by simp [memRead, hr, hl, ht]⟩)

/-- A read changes nothing but the counter of free values. -/
theorem loadWord_state (s : State) (pa0 pa1 : Nat) :
    (loadWord s pa0 pa1).2 = takeFree s (if s.premises.memoryQuiescent then 0 else 2) := by
  unfold loadWord
  split <;> rfl

/-! ## Memory's canonical form -/

theorem all_writeByte (m : Memory) (a : Nat) (b : Byte) (p : Host.Cell → Bool) (hm : m.all p = true) (hp : p (a, b) = true) :
    (writeByte m a b).all p = true := by
  induction m with
  | nil => unfold writeByte; split <;> simp [hp]
  | cons c rest ih =>
    simp only [List.all_cons, Bool.and_eq_true] at hm
    unfold writeByte
    split
    · split <;> simp [hm, hp]
    · split
      · split <;> simp [hm, hp]
      · simp [hm.1, ih hm.2]

/-- Writing a byte keeps memory's canonical form. -/
theorem writeByte_wf (m : Memory) (a : Nat) (b : Byte) (h : Memory.wf m = true) : Memory.wf (writeByte m a b) = true := by
  induction m with
  | nil => unfold writeByte; split <;> simp_all [Memory.wf]
  | cons c rest ih =>
    have h' := h
    simp only [Memory.wf, Bool.and_eq_true] at h'
    obtain ⟨⟨hc, hall⟩, hrest⟩ := h'
    unfold writeByte
    split
    · rename_i hlt
      split
      · exact h
      · rename_i hb
        have hall' : rest.all (fun d => decide (a < d.1)) = true := by
          rw [List.all_eq_true] at hall ⊢
          intro d hd
          have := of_decide_eq_true (hall d hd)
          exact decide_eq_true (Nat.lt_trans hlt this)
        simp only [Memory.wf, List.all_cons, Bool.and_eq_true, bne_iff_ne, ne_eq]
        exact ⟨⟨hb, decide_eq_true hlt, hall'⟩, ⟨by simpa using hc, hall⟩, hrest⟩
    · split
      · rename_i heq
        split
        · exact hrest
        · rename_i hb
          simp only [Memory.wf, Bool.and_eq_true, bne_iff_ne, ne_eq]
          exact ⟨⟨hb, heq ▸ hall⟩, hrest⟩
      · rename_i hge hne
        simp only [Memory.wf, Bool.and_eq_true]
        exact ⟨⟨hc, all_writeByte rest a b _ hall (decide_eq_true (by simp; omega))⟩, ih hrest⟩

theorem writeBytes_wf (bs : List Byte) (m : Memory) (a : Nat) (h : Memory.wf m = true) :
    Memory.wf (writeBytes m a bs) = true := by
  induction bs generalizing m a with
  | nil => exact h
  | cons b bs ih => exact ih _ _ (writeByte_wf m a b h)

/-- An address below every listed one reads as an unlisted one. -/
theorem readByte_of_all_lt (m : Memory) (a : Nat) (h : m.all (fun d => decide (a < d.1)) = true) :
    readByte m a = Config.unlistedByte := by
  induction m with
  | nil => rfl
  | cons c rest ih =>
    simp only [List.all_cons, Bool.and_eq_true, decide_eq_true_eq] at h
    simp [readByte, Nat.ne_of_gt h.1, ih h.2]

/-- Reading after a write: the byte written there, and every other byte as before. -/
theorem readByte_writeByte (m : Memory) (a k : Nat) (b : Byte) (h : Memory.wf m = true) :
    readByte (writeByte m a b) k = if k = a then b else readByte m k := by
  induction m with
  | nil => unfold writeByte; split <;> (simp [readByte]; grind)
  | cons c rest ih =>
    simp only [Memory.wf, Bool.and_eq_true] at h
    obtain ⟨⟨-, hall⟩, hrest⟩ := h
    have hread : ∀ x, x ≤ c.1 → readByte rest x = Config.unlistedByte := fun x hx =>
      readByte_of_all_lt rest x (by
        rw [List.all_eq_true] at hall ⊢
        intro d hd
        exact decide_eq_true (Nat.lt_of_le_of_lt hx (of_decide_eq_true (hall d hd))))
    unfold writeByte
    split
    · rename_i hlt
      have := hread a (Nat.le_of_lt hlt)
      split <;> simp only [readByte] <;> grind
    · split
      · have := hread a (by omega)
        split <;> simp only [readByte] <;> grind
      · simp only [readByte, ih hrest]; grind

end Sys2Proof.Machine
end

