-- ==== Sys2Proof/Laws/Exec.lean ====
section
/-! SUPPORT. What the parts of a meaning do when the premises of R78 hold, the bits of the insertion, and one step of a run. -/

namespace Sys2Proof.Machine

open Sys2Proof

/-! ## The count and the insertion -/

theorem sel64_eq_mod (count : Byte) : sel64 count = count.toNat % 4 := by revert count; decide

theorem sel128_eq_mod (count : Byte) : sel128 count = count.toNat % 8 := by revert count; decide

/-- Bit `i` of a mask is set on word `k`. -/
theorem getLsbD_mask_word {w k i : Nat} (hi : i < w) (h : 16 * k ≤ i) (h' : i < 16 * k + 16) :
    (mask w k).getLsbD i = true := by
  have e : (65535 : Nat) = 2 ^ 16 - 1 := rfl
  simp only [mask, BitVec.getLsbD_shiftLeft, BitVec.getLsbD_ofNat, e, Nat.testBit_two_pow_sub_one]
  simp [hi]
  omega

/-- Bit `i` of a mask is clear outside word `k`. -/
theorem getLsbD_mask_other {w k i : Nat} (h : ¬ (16 * k ≤ i ∧ i < 16 * k + 16)) : (mask w k).getLsbD i = false := by
  have e : (65535 : Nat) = 2 ^ 16 - 1 := rfl
  simp only [mask, BitVec.getLsbD_shiftLeft, BitVec.getLsbD_ofNat, e, Nat.testBit_two_pow_sub_one]
  simp
  omega

/-- Every bit of an insertion: the source's on the selected word, the destination's elsewhere. -/
theorem getLsbD_insertWord {w : Nat} (dest : BitVec w) (source : Dword) (sel i : Nat) (hi : i < w) :
    (insertWord dest source sel).getLsbD i =
      if 16 * sel ≤ i ∧ i < 16 * sel + 16 then source.getLsbD (i - 16 * sel) else dest.getLsbD i := by
  simp only [insertWord, BitVec.getLsbD_or, BitVec.getLsbD_and, BitVec.getLsbD_not, BitVec.getLsbD_shiftLeft,
    BitVec.getLsbD_setWidth, Nat.mul_comm sel 16, hi]
  split
  · rename_i h
    rw [getLsbD_mask_word hi h.1 h.2]
    have : ¬ i < 16 * sel := by omega
    have : i - 16 * sel < w := by omega
    simp [*]
  · rename_i h
    rw [getLsbD_mask_other h]
    simp

theorem getLsbD_lane {w : Nat} (v : BitVec w) (k j : Nat) (hj : j < 16) : (lane v k).getLsbD j = v.getLsbD (16 * k + j) := by
  simp [lane, hj]

/-! ## The state checks -/

theorem stateExceptions_eq_nil {f : Form} {s : State} : stateExceptions f s = [] ↔ StateReady f s := by
  cases f <;> simp [stateExceptions, udCondition, nmCondition, mfCondition, StateReady] <;> grind

/-- Where the state rows of R78 hold, the state checks go on. -/
theorem stateChecks_of_ready {f : Form} {s : State} (h : StateReady f s) : stateChecks f s = .next () := by
  simp [stateChecks, stateExceptions_eq_nil.mpr h, reported]

/-- Where they do not, an applicable exception is raised. -/
theorem stateChecks_of_not_ready {f : Form} {s : State} (h : ¬ StateReady f s) :
    ∃ e, e ∈ stateExceptions f s ∧ stateChecks f s = .fault (.exception e none s.pc) := by
  rcases stateChecks_cases f s with ⟨-, h'⟩ | h'
  · exact absurd (stateExceptions_eq_nil.mp h') h
  · exact h'

/-! ## The operand -/

theorem operandRefusal_of_ready {s : State} {seg : Seg} (h : PremisesReady s seg) :
    operandRefusal s seg = none := by
  unfold operandRefusal
  obtain ⟨ha, hu⟩ := h
  rw [if_neg (by simp [ha]), if_neg (by grind)]

theorem limitException_of_ready {s : State} {seg : Seg} {ea : Nat} (h : LimitReady s seg ea) :
    limitException s seg ea = none := by
  unfold limitException
  cases hm : s.mode <;> simp [hm, LimitReady] at h ⊢
  · simp [h]
  all_goals omega

/-- Where the operand rows of R78 hold, the operand is read. -/
theorem readOperand_of_ready {s : State} {m : MemOperand} {pa0 pa1 : Nat} (h : OperandReady s m pa0 pa1) :
    readOperand s m = .next (loadWord s pa0 pa1) := by
  obtain ⟨hp, hl, ht⟩ := h
  simp [readOperand, memRead, operandRefusal_of_ready hp, limitException_of_ready hl, ht]

/-- An operand that was read meets them. -/
theorem ready_of_readOperand {s : State} {m : MemOperand} {ws : Word × State} (h : readOperand s m = .next ws) :
    ∃ pa0 pa1, OperandReady s m pa0 pa1 ∧ ws = loadWord s pa0 pa1 := by
  unfold readOperand at h
  rcases memRead_cases s (operandAddress s m).1 (operandAddress s m).2 with
    ⟨r, -, h'⟩ | ⟨-, e, -, h'⟩ | ⟨hr, hl, ⟨c, -, h'⟩ | ⟨-, h'⟩ | ⟨pa0, pa1, ht, h'⟩⟩ <;> rw [h'] at h <;> cases h
  refine ⟨pa0, pa1, ⟨?_, ?_, ht⟩, rfl⟩
  · unfold operandRefusal at hr
    constructor <;> grind
  · unfold limitException at hl
    cases hm : s.mode <;> simp [hm, LimitReady] at hl ⊢
    · by_contra hc
      simp at hc
      rw [hc] at hl
      simp at hl
      split at hl <;> cases hl
    all_goals grind

/-! ## Steps and runs -/

/-- What `fetch` answers an instruction from: a launch that is not refused, and bytes at `pc` that decode to it. -/
theorem fetch_eq_ok {s : State} {i : Instr} :
    fetch s = .ok i ↔ LaunchReady s ∧ ∃ rest, decode s.addrSize (s.text.drop s.pc) = .ok (i, rest) := by
  unfold fetch
  constructor
  · intro h
    split at h <;> try cases h
    split at h <;> try cases h
    split at h <;> try cases h
    split at h <;> try cases h
    split at h <;> cases h
    exact ⟨⟨by simp_all, by simp_all, by simp_all⟩, _, ‹_›⟩
  · rintro ⟨⟨ht, hi, ha⟩, rest, hd⟩
    have hp : s.pc ≠ s.text.length := by
      intro hp
      rw [hp, List.drop_length] at hd
      cases hd
    simp [ht, hi, ha, hp, hd]

/-- A step that answers a next state ran the instruction at `pc`. -/
theorem step_eq_next {s t : State} :
    step s = .next t ↔
      ∃ i rest, LaunchReady s ∧ decode s.addrSize (s.text.drop s.pc) = .ok (i, rest) ∧ exec i s = .next t := by
  unfold step
  constructor
  · intro h
    split at h
    · cases h
    · rename_i i hi
      obtain ⟨hl, rest, hd⟩ := fetch_eq_ok.mp hi
      exact ⟨i, rest, hl, hd, h⟩
  · rintro ⟨i, rest, hl, hd, he⟩
    rw [fetch_eq_ok.mpr ⟨hl, rest, hd⟩]
    exact he

/-- A run of one step more is a step and then a run. -/
theorem run_succ (k : Nat) (s : State) :
    Host.Core.run Sys2Proof.core (k + 1) s =
      match step s with
      | .next t => Host.Core.run Sys2Proof.core k t
      | .fault r => .fault r
      | .refused r => .refused r := by
  have e : Sys2Proof.core.step s = step s := rfl
  cases h : step s <;> rw [h] at e <;> simp [Host.Core.run, e]

end Sys2Proof.Machine
end

