-- ==== Sys2Proof/Laws/PerInstr.lean ====
section
/-! SUPPORT. Facts about every instruction as syntax, one lemma for each constructor of `Instr`. -/

namespace Sys2Proof.Laws

open Sys2Proof

theorem dispBytes_length {w n : Nat} (full : BitVec w → List Byte) (h : ∀ d, (full d).length = n) (disp : Disp w) :
    (disp.bytes full).length = disp.size n := by
  cases disp <;> simp [Disp.bytes, Disp.size, h]

/-- An operand's bytes are ModRM and the SIB and displacement bytes (30_encoding.md R46). -/
theorem memOperand_encode_length (reg : RegNum) (m : MemOperand) : (m.encode reg).length = 1 + m.extraBytes := by
  have h32 := fun d : Disp 32 => dispBytes_length (n := 4) bytes32 (fun _ => rfl) d
  have h16 := fun d : Disp 16 => dispBytes_length (n := 2) bytes16 (fun _ => rfl) d
  rcases m with (_ | _ | _ | _) | (_ | _) <;>
    simp [MemOperand.encode, Mem32.encode, Mem16.encode, MemOperand.extraBytes, h32, h16, bytes32, bytes16] <;> omega

theorem disp_size_le {w : Nat} (n : Nat) (h : 1 ≤ n) (disp : Disp w) : disp.size n ≤ n := by
  cases disp <;> simp [Disp.size, h]

theorem memOperand_extraBytes_le (m : MemOperand) : m.extraBytes ≤ 5 := by
  have h32 := fun d : Disp 32 => disp_size_le 4 (by decide) d
  have h16 := fun d : Disp 16 => disp_size_le 2 (by decide) d
  rcases m with (⟨_, d⟩ | _ | ⟨_, _, _, d⟩ | _) | (⟨_, d⟩ | _) <;> simp only [MemOperand.extraBytes] <;>
    first | (have := h32 d; omega) | (have := h16 d; omega) | omega

/-- The encoding has as many bytes as R46 gives the instruction, which are 4 to 10. -/
def EncodedLength.Statement (i : Instr) : Prop :=
  (encode i).length = i.length ∧ 4 ≤ i.length ∧ i.length ≤ 10

theorem EncodedLength.pinsrwMmR32 (d s : RegNum) (imm : Byte) : EncodedLength.Statement (.pinsrwMmR32 d s imm) := by
  simp [EncodedLength.Statement, encode, Instr.length]

theorem EncodedLength.pinsrwMmM16 (d : RegNum) (m : MemOperand) (imm : Byte) :
    EncodedLength.Statement (.pinsrwMmM16 d m imm) := by
  have h := memOperand_encode_length d m
  have h' := memOperand_extraBytes_le m
  simp only [EncodedLength.Statement, encode, Instr.length, List.length_cons, List.length_append, List.length_nil, h]
  omega

theorem EncodedLength.pinsrwXmmR32 (d s : RegNum) (imm : Byte) : EncodedLength.Statement (.pinsrwXmmR32 d s imm) := by
  simp [EncodedLength.Statement, encode, Instr.length]

theorem EncodedLength.pinsrwXmmM16 (d : RegNum) (m : MemOperand) (imm : Byte) :
    EncodedLength.Statement (.pinsrwXmmM16 d m imm) := by
  have h := memOperand_encode_length d m
  have h' := memOperand_extraBytes_le m
  simp only [EncodedLength.Statement, encode, Instr.length, List.length_cons, List.length_append, List.length_nil, h]
  omega

end Sys2Proof.Laws
end

