-- ==== Sys2Proof/Tests/Slice0.lean ====
section
/-! SUPPORT. Tests whose expected values are the vectors of spec/95_test_vectors.md (named in the comments), an ill-formed term for
each check of WellFormed, and for each statement with hypotheses a concrete state and operands that meet all of them. -/

namespace Sys2Proof.Tests

open Sys2Proof Sys2Proof.Machine

/-! ## Helpers -/

def nextOf : Result State → Option State
  | .next t => some t
  | _ => none

def faultOf : Result State → Option Fault
  | .fault r => some r
  | _ => none

def refusalOf : Result State → Option Refusal
  | .refused r => some r
  | _ => none

/-- `mm[n]` after an outcome, if it is a next state. -/
def mmAfter (r : Result State) (n : RegNum) : Option Qword := (nextOf r).map fun t => readMm t n

/-- `xmm[n]` after an outcome, if it is a next state. -/
def xmmAfter (r : Result State) (n : RegNum) : Option Oword := (nextOf r).map fun t => readXmm t n

/-- The launch state of 95_test_vectors.md 2.1 to 2.4: EAX = DEADBEEF, ECX = AAAA, EBX = 1000, EBP = 100, memory 34 12 78 56 from
1000 on, mm0 and xmm1 as in the tables, mm2 all ones. -/
def demo : State :=
  { State.reset with
    r32 := #v[0xDEADBEEF#32, 0x0000AAAA#32, 0#32, 0x1000#32, 0#32, 0x100#32, 0#32, 0#32]
    mm := #v[0x1111222233334444#64, 0#64, 0xFFFFFFFFFFFFFFFF#64, 0#64, 0#64, 0#64, 0#64, 0#64]
    xmm := #v[0#128, 0x0123456789ABCDEFFEDCBA9876543210#128, 0#128, 0#128, 0#128, 0#128, 0#128, 0#128]
    mem := writeBytes [] 0x1000 [0x34#8, 0x12#8, 0x78#8, 0x56#8] }

/-- `word [ebx + disp8]`, `word [ebx]`, `word [ebp + disp8]` and `word [bx]`. -/
def ebx8 (b : Byte) : MemOperand := .m32 (.based 3#3 (.disp8 b))
def ebx : MemOperand := .m32 (.based 3#3 .none)
def ebp8 (b : Byte) : MemOperand := .m32 (.based 5#3 (.disp8 b))
def bx : MemOperand := .m16 (.based 7#3 .none)

/-- A machine with 16-bit addresses in a mode other than protected, BX as given (vectors F19 to F22). -/
def small (mode : Mode) (b : Dword) : State :=
  { State.reset with mode := mode, addrSize := .a16, r32 := State.reset.r32.set 3 b }

/-! ## WellFormed: an ill-formed term for each check, and its well-formed neighbour -/

theorem test_illformed_based_esp : (Mem32.based 4#3 .none).wellFormed = false ∧ (Mem32.based 3#3 .none).wellFormed = true := by decide
theorem test_illformed_based_ebp : (Mem32.based 5#3 .none).wellFormed = false ∧ (Mem32.based 5#3 (.disp8 0#8)).wellFormed = true := by decide
theorem test_illformed_sib_base : (Mem32.sib 0#2 0#3 5#3 .none).wellFormed = false ∧ (Mem32.sib 0#2 0#3 4#3 .none).wellFormed = true := by decide
theorem test_illformed_bp : (Mem16.based 6#3 .none).wellFormed = false ∧ (Mem16.based 6#3 (.full 0#16)).wellFormed = true := by decide
theorem test_illformed_mm_m16 : (Instr.pinsrwMmM16 0#3 (.m32 (.based 4#3 .none)) 0#8).wellFormed = false := by decide
theorem test_illformed_xmm_m16 : (Instr.pinsrwXmmM16 0#3 (.m16 (.based 6#3 .none)) 0#8).wellFormed = false := by decide
theorem test_fits_one_address_size : (Instr.pinsrwMmM16 0#3 bx 0#8).fits .a32 = false ∧ (Instr.pinsrwMmM16 0#3 bx 0#8).fits .a16 = true := by decide

/-! ## Decoding: words written out from the encodings (vectors E1 to E18, X1 to X8) -/

/-- E2, E3: mm7, edi, 3 and mm5, esp, 1. -/
theorem test_decode_mm_r32 :
    decode .a32 [0x0F#8, 0xC4#8, 0b11111111#8, 0x03#8] = .ok (.pinsrwMmR32 7#3 7#3 3#8, []) ∧
    decode .a32 [0x0F#8, 0xC4#8, 0b11101100#8, 0x01#8] = .ok (.pinsrwMmR32 5#3 4#3 1#8, []) := by decide

/-- E4: xmm1, ecx, 4. -/
theorem test_decode_xmm_r32 :
    decode .a32 [0x66#8, 0x0F#8, 0xC4#8, 0b11001001#8, 0x04#8] = .ok (.pinsrwXmmR32 1#3 1#3 4#8, []) := by decide

/-- E6, E12, E14: mm2, [ebx], 3; mm4, [esp], 2; mm6, [edx+0x10000], 0. -/
theorem test_decode_mm_m16 :
    decode .a32 [0x0F#8, 0xC4#8, 0x13#8, 0x03#8] = .ok (.pinsrwMmM16 2#3 ebx 3#8, []) ∧
    decode .a32 [0x0F#8, 0xC4#8, 0x24#8, 0x24#8, 0x02#8] = .ok (.pinsrwMmM16 4#3 (.m32 (.sib 0#2 4#3 4#3 .none)) 2#8, []) ∧
    decode .a32 [0x0F#8, 0xC4#8, 0xB2#8, 0x00#8, 0x00#8, 0x01#8, 0x00#8, 0x00#8] =
      .ok (.pinsrwMmM16 6#3 (.m32 (.based 2#3 (.full 0x10000#32))) 0#8, []) := by decide

/-- E10, E11: xmm0, [0x2000], 0 and xmm1, [eax+ecx*2+0x10], 5. -/
theorem test_decode_xmm_m16 :
    decode .a32 [0x66#8, 0x0F#8, 0xC4#8, 0x05#8, 0x00#8, 0x20#8, 0x00#8, 0x00#8, 0x00#8] =
      .ok (.pinsrwXmmM16 0#3 (.m32 (.absolute 0x2000#32)) 0#8, []) ∧
    decode .a32 [0x66#8, 0x0F#8, 0xC4#8, 0x4C#8, 0x48#8, 0x10#8, 0x05#8] =
      .ok (.pinsrwXmmM16 1#3 (.m32 (.sib 1#2 1#3 0#3 (.disp8 0x10#8))) 5#8, []) := by decide

/-- E15, E18: mm0, [bp+si], 2 and mm1, [bx], 0, with 16-bit addresses. -/
theorem test_decode_16 :
    decode .a16 [0x0F#8, 0xC4#8, 0x02#8, 0x02#8] = .ok (.pinsrwMmM16 0#3 (.m16 (.based 2#3 .none)) 2#8, []) ∧
    decode .a16 [0x0F#8, 0xC4#8, 0x0F#8, 0x00#8] = .ok (.pinsrwMmM16 1#3 bx 0#8, []) := by decide

/-- X1 to X8. -/
theorem test_decode_refusals :
    decode .a32 [0xF3#8, 0x0F#8, 0xC4#8, 0xC0#8, 0x00#8] = .error .rep ∧
    decode .a32 [0x66#8, 0x66#8, 0x0F#8, 0xC4#8, 0xC9#8, 0x04#8] = .error .second66 ∧
    decode .a32 [0x2E#8, 0x0F#8, 0xC4#8, 0x13#8, 0x03#8] = .error (.segmentOverride 0x2E#8) ∧
    decode .a32 [0x67#8, 0x0F#8, 0xC4#8, 0x13#8, 0x03#8] = .error .addressSizeOverride ∧
    decode .a32 [0x0F#8, 0xC5#8, 0xC0#8, 0x00#8] = .error (.after0F 0xC5#8) ∧
    decode .a32 [0x0F#8, 0xC4#8, 0xC0#8] = .error .truncated ∧
    decode .a32 [0xF0#8, 0x0F#8, 0xC4#8, 0x13#8, 0x03#8] = .error .lock ∧
    decode .a32 [0xF3#8, 0x0F#8, 0x5E#8, 0xC1#8] = .error .rep := by decide

/-- The encoder gives E13's bytes. -/
theorem test_encode_longest :
    encode (.pinsrwXmmM16 2#3 (.m32 (.sibNoBase 3#2 6#3 0x12345678#32)) 6#8) =
      [0x66#8, 0x0F#8, 0xC4#8, 0x14#8, 0xF5#8, 0x78#8, 0x56#8, 0x34#8, 0x12#8, 0x06#8] := by decide

/-- The table's rows, numbered as the table numbers them and the other way round. -/
theorem test_table_words :
    decodeTableWord 32 0x0FC4C000 = some (.pinsrwMmR32 0#3 0#3 0#8) ∧
    decodeTableWord 32 0x00C0C40F = some (.pinsrwMmR32 0#3 0#3 0#8) ∧
    decodeTableWord 16 0x0FC4 = some (.pinsrwMmM16 0#3 (.m32 (.based 0#3 .none)) 0#8) ∧
    decodeTableWord 32 0x660FC4C0 = some (.pinsrwXmmR32 0#3 0#3 0#8) ∧
    decodeTableWord 40 0x660FC4C000 = some (.pinsrwXmmR32 0#3 0#3 0#8) ∧
    decodeTableWord 24 0x660FC4 = some (.pinsrwXmmM16 0#3 (.m32 (.based 0#3 .none)) 0#8) ∧
    decodeTableWord 32 0 = none := by decide

/-- The first step after reset runs the table word's instruction. -/
theorem test_table_word_runs :
    ((nextOf (step (State.reset.withFetchWord 32 0x0FC4C000))).map State.pc = some 4) ∧
    ((nextOf (step (State.reset.withFetchWord 16 0x0FC4))).map State.pc = some 4) ∧
    ((nextOf (step (State.reset.withFetchWord 32 0x660FC4C0))).map State.pc = some 5) ∧
    ((nextOf (step (State.reset.withFetchWord 24 0x660FC4))).map State.pc = some 5) := by decide

/-! ## Operands -/

/-- E9: SS, EBP + FFFFFFFE modulo 2^32. E11's scaled index, with ECX = AAAA. E17: DS, BX + DI + FFFF modulo 2^16. -/
theorem test_addresses :
    operandAddress demo (ebp8 0xFE#8) = (.ss, 0xFE) ∧
    operandAddress demo (.m32 (.sib 1#2 1#3 2#3 (.disp8 0x10#8))) = (.ds, 0x15564) ∧
    operandAddress demo (.m16 (.based 1#3 (.disp8 0xFF#8))) = (.ds, 0xFFF) := by decide

/-! ## The four forms, two each -/

/-- A8: the high half of the source falls off the top. -/
theorem test_mm_r32_top_word : mmAfter (exec (.pinsrwMmR32 0#3 0#3 3#8) demo) 0#3 = some 0xBEEF222233334444#64 := by decide
/-- A9, with ECX = AAAA: bit 2 of the count is ignored. -/
theorem test_mm_r32_count_4 : mmAfter (exec (.pinsrwMmR32 0#3 1#3 4#8) demo) 0#3 = some 0x111122223333AAAA#64 := by decide
/-- M1: little-endian. -/
theorem test_mm_m16 : mmAfter (exec (.pinsrwMmM16 2#3 ebx 3#8) demo) 2#3 = some 0x1234FFFFFFFFFFFF#64 := by decide
/-- M2, on the all-ones register. -/
theorem test_mm_m16_disp8 : mmAfter (exec (.pinsrwMmM16 2#3 (ebx8 2#8) 0#8) demo) 2#3 = some 0xFFFFFFFFFFFF5678#64 := by decide
/-- B8: FC selects word 4. -/
theorem test_xmm_r32_count_fc : xmmAfter (exec (.pinsrwXmmR32 1#3 1#3 0xFC#8) demo) 1#3 = some 0x0123456789ABAAAAFEDCBA9876543210#128 := by decide
/-- B10: the high half of the source falls off the top. -/
theorem test_xmm_r32_top_word : xmmAfter (exec (.pinsrwXmmR32 1#3 0#3 7#8) demo) 1#3 = some 0xBEEF456789ABCDEFFEDCBA9876543210#128 := by decide
/-- M3: an odd address. -/
theorem test_xmm_m16_odd : xmmAfter (exec (.pinsrwXmmM16 0#3 (ebx8 1#8) 1#8) demo) 0#3 = some 0x00000000000000000000000078120000#128 := by decide
/-- M4: two bytes are read. -/
theorem test_xmm_m16_top : xmmAfter (exec (.pinsrwXmmM16 0#3 ebx 7#8) demo) 0#3 = some 0x12340000000000000000000000000000#128 := by decide

/-! ## Exceptions: the vectors F, on states that differ from the launch state in one thing -/

/-- DS with the limit given. -/
def dsLimit (l : Nat) : State := { demo with segs := { demo.segs with ds := ⟨true, .expandUp l⟩ } }

/-- SS with the limit given. -/
def ssLimit (l : Nat) : State := { demo with segs := { demo.segs with ss := ⟨true, .expandUp l⟩ } }

/-- F14 and F15: the second byte counts. -/
theorem test_ds_limit :
    faultOf (exec (.pinsrwMmM16 2#3 ebx 0#8) (dsLimit 0x1000)) = some (.exception .gp (some 0) 0) ∧
    (nextOf (exec (.pinsrwMmM16 2#3 ebx 0#8) (dsLimit 0x1001))).isSome = true := by decide

/-- F16. -/
theorem test_ss_limit : faultOf (exec (.pinsrwMmM16 0#3 (ebp8 8#8) 1#8) (ssLimit 0xFF)) = some (.exception .ss (some 0) 0) := by decide

/-- The page of 2000 is not present (F18): operands that touch it fault with code 7. -/
def pageGone : State := { demo with translation := [⟨.ds, 0x1FFF, 0x2FFF, .pageFault 7⟩] }

/-- F18, and the neighbour that does not touch the page. -/
theorem test_page_fault :
    faultOf (exec (.pinsrwMmM16 2#3 (.m32 (.absolute 0x1FFF#32)) 0#8) pageGone) = some (.exception .pf (some 7) 0) ∧
    (nextOf (exec (.pinsrwMmM16 2#3 (.m32 (.absolute 0x1FFE#32)) 0#8) pageGone)).isSome = true := by decide

/-- F19, F20, F23: real-address mode at FFFF, at FFFE, and with a page-fault rule. -/
theorem test_real_address :
    faultOf (exec (.pinsrwMmM16 1#3 bx 0#8) (small .realAddress 0xFFFF#32)) = some (.exception .gp (some 0) 0) ∧
    (nextOf (exec (.pinsrwMmM16 1#3 bx 0#8) (small .realAddress 0xFFFE#32))).isSome = true ∧
    (nextOf (exec (.pinsrwMmM16 1#3 bx 0#8)
      { small .realAddress 0x2000#32 with translation := [⟨.ds, 0, 0xFFFF, .pageFault 7⟩] })).isSome = true := by decide

/-- F21: the state check comes first. -/
theorem test_nm_before_gp :
    faultOf (exec (.pinsrwMmM16 2#3 ebx 0#8) { dsLimit 0x0FFF with cr0TS := true }) = some (.exception .nm none 0) := by decide

/-- F22. -/
theorem test_v86_page_fault :
    faultOf (exec (.pinsrwXmmM16 0#3 bx 0#8)
      { small .virtual8086 0x2000#32 with translation := [⟨.ds, 0x1FFF, 0x2FFF, .pageFault 9⟩] }) =
      some (.exception .pf (some 9) 0) := by decide

/-- F1, F3, F5, F7, F9, F11, F24. -/
theorem test_state_checks :
    faultOf (exec (.pinsrwMmR32 0#3 0#3 0#8) { demo with cr0EM := true }) = some (.exception .ud none 0) ∧
    faultOf (exec (.pinsrwXmmR32 0#3 0#3 0#8) { demo with cr4OSFXSR := false }) = some (.exception .ud none 0) ∧
    faultOf (exec (.pinsrwXmmR32 0#3 0#3 0#8) { demo with cpuidSSE2 := false }) = some (.exception .ud none 0) ∧
    faultOf (exec (.pinsrwMmR32 0#3 0#3 0#8) { demo with cr0TS := true }) = some (.exception .nm none 0) ∧
    faultOf (exec (.pinsrwMmR32 0#3 0#3 0#8) { demo with x87Pending := true }) = some (.exception .mf none 0) ∧
    faultOf (exec (.pinsrwMmR32 0#3 0#3 0#8) { demo with mode := .realAddress, x87Pending := true }) = some (.exception .mf none 0) ∧
    faultOf (exec (.pinsrwMmR32 0#3 0#3 0#8) { demo with hasPinsrwMM := false }) = some (.exception .ud none 0) := by decide

/-- F4, F6, F10. -/
theorem test_bits_a_form_does_not_test :
    (nextOf (exec (.pinsrwMmR32 0#3 0#3 0#8) { demo with cr4OSFXSR := false })).isSome = true ∧
    (nextOf (exec (.pinsrwMmR32 0#3 0#3 0#8) { demo with cpuidSSE2 := false })).isSome = true ∧
    (nextOf (exec (.pinsrwXmmR32 0#3 0#3 0#8) { demo with x87Pending := true })).isSome = true := by decide

/-! ## Memory and steps -/

theorem test_memory_is_canonical :
    writeByte (writeByte [(4, 1#8)] 2 7#8) 4 0#8 = [(2, 7#8)] ∧ Memory.wf [(2, 7#8), (4, 1#8)] = true ∧
    Memory.wf [(4, 1#8), (2, 7#8)] = false ∧ Memory.wf [(2, 0#8)] = false := by decide

/-- A program of P5: xmm0, eax, 0 and then mm0, eax, 0. -/
def program : State := { demo with text := [0x66#8, 0x0F#8, 0xC4#8, 0xC0#8, 0x00#8, 0x0F#8, 0xC4#8, 0xC0#8, 0x00#8] }

theorem test_step :
    xmmAfter (step program) 0#3 = some 0x0000000000000000000000000000BEEF#128 ∧
    (nextOf (step program)).map State.pc = some 5 ∧
    mmAfter (step { program with pc := 5 }) 0#3 = some 0x111122223333BEEF#64 ∧
    refusalOf (step { program with pc := 9 }) = some .endOfRun ∧
    refusalOf (step { program with pc := 6 }) = some (.undecodable (.firstByte 0xC4#8)) := by decide

/-! ## Witnesses: concrete states and operands that meet every hypothesis of a statement -/

theorem witness_DecodeOfEncodeIsTheInstruction :
    (Instr.pinsrwXmmM16 2#3 (.m32 (.sibNoBase 3#2 6#3 0x12345678#32)) 6#8).wellFormed = true ∧
    (Instr.pinsrwXmmM16 2#3 (.m32 (.sibNoBase 3#2 6#3 0x12345678#32)) 6#8).fits .a32 = true ∧
    (Instr.pinsrwMmM16 3#3 (.m16 (.absolute 0x1234#16)) 1#8).wellFormed = true ∧
    (Instr.pinsrwMmM16 3#3 (.m16 (.absolute 0x1234#16)) 1#8).fits .a16 = true := by decide

theorem witness_DecodeAcceptsOnlyEncodings :
    decode .a32 [0x0F#8, 0xC4#8, 0x53#8, 0x02#8, 0x00#8, 0xAA#8] = .ok (.pinsrwMmM16 2#3 (ebx8 2#8) 0#8, [0xAA#8]) := by decide

theorem witness_Byte66SelectsTheXmmForm :
    decode .a32 [0x66#8, 0x0F#8, 0xC4#8, 0x13#8, 0x03#8] = .ok (.pinsrwXmmM16 2#3 ebx 3#8, []) ∧
    decode .a32 [0x0F#8, 0xC4#8, 0x13#8, 0x03#8] = .ok (.pinsrwMmM16 2#3 ebx 3#8, []) ∧
    (Instr.pinsrwMmM16 2#3 ebx 3#8).form = .mmx := by decide

/-- Each wrong byte beside the right one, and the longest of the four sequences without a wrong byte. -/
theorem witness_OtherByteSequencesRefused :
    (0x67#8 : Byte) ≠ 0x66#8 ∧ (0x67#8 : Byte) ≠ 0x0F#8 ∧ (0x66#8 : Byte) ≠ 0x0F#8 ∧ (0x0E#8 : Byte) ≠ 0x0F#8 ∧
    (0xC5#8 : Byte) ≠ 0xC4#8 ∧ [0x66#8, 0x0F#8] ∈ ([[], [0x0F#8], [0x66#8], [0x66#8, 0x0F#8]] : List (List Byte)) ∧
    (0x65#8 : Byte) ∈ [0x26#8, 0x2E#8, 0x36#8, 0x3E#8, 0x64#8, 0x65#8] := by decide

/-- Cut by one byte, and to nothing. -/
theorem witness_InstructionCutShortIsTruncated :
    (Instr.pinsrwMmM16 2#3 (ebx8 2#8) 0#8).wellFormed = true ∧ (Instr.pinsrwMmM16 2#3 (ebx8 2#8) 0#8).fits .a32 = true ∧
    4 < (Instr.pinsrwMmM16 2#3 (ebx8 2#8) 0#8).length ∧ 0 < (Instr.pinsrwMmR32 0#3 0#3 0#8).length := by decide

theorem witness_EveryModRmByteDecodes :
    modField 0xC0#8 = 3#2 ∧ modField 0xBF#8 ≠ 3#2 ∧ modField 0x00#8 ≠ 3#2 ∧ 6 ≤ ([0, 0, 0, 0, 0, 0] : List Byte).length := by decide

/-- The longest and the shortest of each row of R46's table. -/
theorem witness_LengthsByForm :
    decode .a32 [0x0F#8, 0xC4#8, 0xC0#8, 0x00#8] = .ok (.pinsrwMmR32 0#3 0#3 0#8, []) ∧
    decode .a32 [0x66#8, 0x0F#8, 0xC4#8, 0xC0#8, 0x00#8] = .ok (.pinsrwXmmR32 0#3 0#3 0#8, []) ∧
    decode .a32 [0x0F#8, 0xC4#8, 0x13#8, 0x03#8] = .ok (.pinsrwMmM16 2#3 ebx 3#8, []) ∧
    decode .a32 [0x66#8, 0x0F#8, 0xC4#8, 0x14#8, 0xF5#8, 0#8, 0#8, 0#8, 0#8, 0x06#8] =
      .ok (.pinsrwXmmM16 2#3 (.m32 (.sibNoBase 3#2 6#3 0#32)) 6#8, []) ∧
    decode .a16 [0x0F#8, 0xC4#8, 0x1E#8, 0x34#8, 0x12#8, 0x01#8] =
      .ok (.pinsrwMmM16 3#3 (.m16 (.absolute 0x1234#16)) 1#8, []) ∧
    decode .a16 [0x66#8, 0x0F#8, 0xC4#8, 0x87#8, 0x34#8, 0x12#8, 0x01#8] =
      .ok (.pinsrwXmmM16 0#3 (.m16 (.based 7#3 (.full 0x1234#16))) 1#8, []) := by decide

/-- The conditions on `rm` and on the SIB base, at the values beside the excluded ones. -/
theorem witness_OperandAddresses32 :
    (3#3 : RegNum) ≠ 4#3 ∧ (6#3 : RegNum) ≠ 5#3 ∧ (6#3 : RegNum) ≠ 4#3 ∧ (5#3 : RegNum) ≠ 4#3 ∧ (4#3 : RegNum) ≠ 5#3 := by decide

theorem witness_OperandAddresses16 : (5#3 : RegNum) ≠ 6#3 ∧ (7#3 : RegNum) ≠ 6#3 := by decide

theorem witness_MasksAreTheSourcesConstants : 63 < 64 ∧ 127 < 128 := by decide

theorem witness_InsertWordActsOnOneLane : 3 < 4 ∧ 7 < 8 := by decide

theorem witness_MmR32InsertsTheLowWord : StateReady .mmx demo := by decide

/-- An aligned operand, an odd one, and the last one of real-address mode. -/
theorem witness_MmM16InsertsTheMemoryWord :
    StateReady .mmx demo ∧ OperandReady demo ebx 0x1000 0x1001 ∧ OperandReady demo (ebx8 1#8) 0x1001 0x1002 ∧
    demo.premises.memoryQuiescent = true ∧ StateReady .mmx (small .realAddress 0xFFFE#32) ∧
    OperandReady (small .realAddress 0xFFFE#32) bx 0xFFFE 0xFFFF ∧
    (small .realAddress 0xFFFE#32).premises.memoryQuiescent = true := by decide

theorem witness_XmmR32InsertsTheLowWord : StateReady .xmm demo := by decide

/-- Protected mode at the segment's last word, and virtual-8086 mode with bytes that are not adjacent. -/
theorem witness_XmmM16InsertsTheMemoryWord :
    StateReady .xmm (dsLimit 0x1001) ∧ OperandReady (dsLimit 0x1001) ebx 0x1000 0x1001 ∧
    (dsLimit 0x1001).premises.memoryQuiescent = true ∧
    StateReady .xmm { small .virtual8086 0x1FFF#32 with translation := [⟨.ds, 0x1FFF, 0x1FFF, .physical 0x8FFF 0x3000⟩] } ∧
    OperandReady { small .virtual8086 0x1FFF#32 with translation := [⟨.ds, 0x1FFF, 0x1FFF, .physical 0x8FFF 0x3000⟩] } bx
      0x8FFF 0x3000 := by decide

/-- The demo state in a machine with other agents. -/
def shared : State := { demo with premises := { demo.premises with memoryQuiescent := false } }

theorem witness_OracleBytesWhereMemoryIsNotQuiescent :
    OperandReady shared ebx 0x1000 0x1001 ∧ shared.premises.memoryQuiescent = false ∧ StateReady .mmx shared ∧
    StateReady .xmm shared := by decide

theorem witness_OnlyTheLowCountBitsMatter :
    (0xFF#8).toNat % (Instr.pinsrwMmR32 0#3 0#3 3#8).form.words = (3#8).toNat % (Instr.pinsrwMmR32 0#3 0#3 3#8).form.words ∧
    (0x08#8).toNat % (Instr.pinsrwXmmM16 0#3 ebx 0#8).form.words = (0#8).toNat % (Instr.pinsrwXmmM16 0#3 ebx 0#8).form.words := by decide

theorem witness_HighHalfOfTheSourceRegisterIsUnused :
    (0x0000BEEF#32).extractLsb' 0 16 = (readR32 demo 0#3).extractLsb' 0 16 ∧
    (nextOf (exec (Form.mmx.registerInstr 0#3 0#3 0#8) demo)).isSome = true ∧
    (nextOf (exec (Form.xmm.registerInstr 0#3 0#3 7#8) demo)).isSome = true := by decide

/-- A memory form in a machine of one agent; two register forms where other agents write memory. -/
theorem witness_InsertsIntoDifferentWordsCommute :
    (Instr.pinsrwMmR32 2#3 0#3 3#8).form = (Instr.pinsrwMmM16 2#3 ebx 0#8).form ∧
    (Instr.pinsrwMmR32 2#3 0#3 3#8).dest = (Instr.pinsrwMmM16 2#3 ebx 0#8).dest ∧
    (Instr.pinsrwMmR32 2#3 0#3 3#8).word ≠ (Instr.pinsrwMmM16 2#3 ebx 0#8).word ∧
    demo.premises.memoryQuiescent = true ∧ (nextOf (exec (.pinsrwMmR32 2#3 0#3 3#8) demo)).isSome = true ∧
    (nextOf (exec (.pinsrwMmM16 2#3 ebx 0#8) demo)).isSome = true ∧
    (Instr.pinsrwMmR32 2#3 0#3 3#8).word ≠ (Instr.pinsrwMmR32 2#3 3#3 0#8).word ∧
    (Instr.pinsrwMmR32 2#3 0#3 3#8).memOperand = none ∧ (Instr.pinsrwMmR32 2#3 3#3 0#8).memOperand = none ∧
    (nextOf (exec (.pinsrwMmR32 2#3 0#3 3#8) shared)).isSome = true ∧
    (nextOf (exec (.pinsrwMmR32 2#3 3#3 0#8) shared)).isSome = true := by decide

/-- The later one a memory form, in a machine of one agent; the earlier one, where other agents write memory. -/
theorem witness_LaterInsertIntoTheSameWordWins :
    (Instr.pinsrwXmmR32 1#3 0#3 8#8).form = (Instr.pinsrwXmmM16 1#3 ebx 0#8).form ∧
    (Instr.pinsrwXmmR32 1#3 0#3 8#8).dest = (Instr.pinsrwXmmM16 1#3 ebx 0#8).dest ∧
    (Instr.pinsrwXmmR32 1#3 0#3 8#8).word = (Instr.pinsrwXmmM16 1#3 ebx 0#8).word ∧
    demo.premises.memoryQuiescent = true ∧ (nextOf (exec (.pinsrwXmmR32 1#3 0#3 8#8) demo)).isSome = true ∧
    (nextOf (exec (.pinsrwXmmM16 1#3 ebx 0#8) demo)).isSome = true ∧
    (Instr.pinsrwXmmR32 1#3 0#3 8#8).memOperand = none ∧
    (nextOf (exec (.pinsrwXmmM16 1#3 ebx 0#8) shared)).isSome = true ∧
    (nextOf (exec (.pinsrwXmmR32 1#3 0#3 8#8) shared)).isSome = true := by decide

/-- Also the witness of NoFormWritesMemory, PcMovesPastTheInstruction and FlagsAreNeitherReadNorWritten. -/
theorem witness_FrameOfThe64BitForms :
    (Instr.pinsrwMmM16 2#3 ebx 3#8).form = .mmx ∧ (nextOf (exec (.pinsrwMmM16 2#3 ebx 3#8) demo)).isSome = true ∧
    (1#3 : RegNum) ≠ (Instr.pinsrwMmM16 2#3 ebx 3#8).dest ∧ demo.premises.memoryQuiescent = true := by decide

theorem witness_FrameOfThe128BitForms :
    (Instr.pinsrwXmmM16 0#3 ebx 7#8).form = .xmm ∧ (nextOf (exec (.pinsrwXmmM16 0#3 ebx 7#8) demo)).isSome = true ∧
    (1#3 : RegNum) ≠ (Instr.pinsrwXmmM16 0#3 ebx 7#8).dest ∧ demo.premises.memoryQuiescent = true := by decide

theorem witness_FlagsAreNeitherReadNorWritten : (nextOf (exec (.pinsrwMmR32 0#3 0#3 0#8) demo)).isSome = true := by decide

theorem witness_NoFormWritesMemory : (nextOf (exec (.pinsrwXmmM16 0#3 ebx 7#8) demo)).isSome = true := by decide

theorem witness_PcMovesPastTheInstruction :
    (nextOf (exec (.pinsrwXmmM16 0#3 ebx 7#8) demo)).isSome = true ∧
    faultOf (exec (.pinsrwMmR32 0#3 0#3 0#8) { program with pc := 5, x87Pending := true }) = some (.exception .mf none 5) := by decide

theorem raises_of_faultOf {i : Instr} {s : State} {e : Exception} {code : Option FaultCode}
    (h : faultOf (exec i s) = some (.exception e code s.pc)) : Raises i s e code := by
  unfold Raises
  cases hx : exec i s <;> rw [hx] at h <;> simp_all [faultOf]

theorem witness_WhichBytesOfMemoryAreRead :
    ((Instr.pinsrwMmR32 0#3 0#3 0#8).memOperand = none ∧
      Raises (.pinsrwMmR32 0#3 0#3 0#8) { demo with cr0TS := true } .nm none) ∧
    (Instr.pinsrwMmM16 2#3 ebx 3#8).memOperand = some ebx ∧ OperandReady demo ebx 0x1000 0x1001 ∧
    readByte [(0x1000, 0x34#8), (0x1001, 0x12#8)] 0x1000 = readByte demo.mem 0x1000 ∧
    readByte [(0x1000, 0x34#8), (0x1001, 0x12#8)] 0x1001 = readByte demo.mem 0x1001 :=
  ⟨⟨rfl, raises_of_faultOf (by decide)⟩, by decide⟩

/-- CR0.EM set; and the part without the 64-bit form. -/
theorem witness_EmulationBitRaisesUd :
    ({ demo with cr0EM := true } : State).cr0EM = true ∧
    (Instr.pinsrwMmM16 2#3 ebx 0#8).form = .mmx ∧ ({ demo with hasPinsrwMM := false } : State).hasPinsrwMM = false := by decide

theorem witness_OsfxsrClearRaisesUdIn128BitForms :
    (Instr.pinsrwXmmM16 0#3 ebx 0#8).form = .xmm ∧ ({ demo with cr4OSFXSR := false } : State).cr4OSFXSR = false ∧
    (Instr.pinsrwMmM16 0#3 ebx 0#8).form = .mmx := by decide

theorem witness_Sse2ClearRaisesUdIn128BitForms :
    (Instr.pinsrwXmmM16 0#3 ebx 0#8).form = .xmm ∧ ({ demo with cpuidSSE2 := false } : State).cpuidSSE2 = false ∧
    (Instr.pinsrwMmM16 0#3 ebx 0#8).form = .mmx := by decide

theorem witness_TaskSwitchedBitRaisesNm : ({ demo with cr0TS := true } : State).cr0TS = true := by decide

theorem witness_PendingX87RaisesMfIn64BitForms :
    (Instr.pinsrwMmR32 0#3 0#3 0#8).form = .mmx ∧ ({ demo with x87Pending := true } : State).x87Pending = true ∧
    (Instr.pinsrwXmmR32 0#3 0#3 0#8).form = .xmm := by decide

/-- One state for each of the three exceptions, and one where two apply (F12). -/
theorem witness_StateChecksComeBeforeMemory :
    ¬ StateReady .mmx { dsLimit 0x0FFF with cr0TS := true } ∧
    ¬ StateReady .xmm { demo with cr4OSFXSR := false } ∧
    ¬ StateReady .mmx { demo with x87Pending := true } ∧
    ¬ StateReady .mmx { demo with cr0EM := true, cr0TS := true } := by decide

/-- Each of the six exceptions is raised somewhere; #GP(0) in both of its ways. -/
theorem witness_ReportedExceptionApplies :
    Raises (.pinsrwMmR32 0#3 0#3 0#8) { demo with cr0EM := true } .ud none ∧
    Raises (.pinsrwXmmR32 0#3 0#3 0#8) { demo with cr0TS := true } .nm none ∧
    Raises (.pinsrwMmR32 0#3 0#3 0#8) { demo with x87Pending := true } .mf none ∧
    Raises (.pinsrwMmM16 2#3 ebx 0#8) (dsLimit 0x1000) .gp (some 0) ∧
    Raises (.pinsrwMmM16 1#3 bx 0#8) (small .realAddress 0xFFFF#32) .gp (some 0) ∧
    Raises (.pinsrwMmM16 0#3 (ebp8 8#8) 1#8) (ssLimit 0xFF) .ss (some 0) ∧
    Raises (.pinsrwMmM16 2#3 (.m32 (.absolute 0x1FFF#32)) 0#8) pageGone .pf (some 7) :=
  ⟨raises_of_faultOf (by decide), raises_of_faultOf (by decide), raises_of_faultOf (by decide),
    raises_of_faultOf (by decide), raises_of_faultOf (by decide), raises_of_faultOf (by decide),
    raises_of_faultOf (by decide)⟩

/-- F14: the second byte is the first outside. -/
theorem witness_LimitViolationRaisesGpInProtectedMode :
    (Instr.pinsrwMmM16 2#3 ebx 0#8).memOperand = some ebx ∧ operandAddress (dsLimit 0x1000) ebx = (.ds, 0x1000) ∧
    StateReady .mmx (dsLimit 0x1000) ∧ PremisesReady (dsLimit 0x1000) .ds ∧ (dsLimit 0x1000).mode = .protectedMode ∧
    Seg.ds ∈ [Seg.cs, .ds, .es, .fs, .gs] ∧ segLimitOK (dsLimit 0x1000) .ds 0x1000 2 = false := by decide

/-- EBP + 8 = 108H, with the SS limit one byte short; and virtual-8086 mode, an SS operand and a DS one. -/
theorem witness_SsLimitViolationRaisesSsInProtectedModeOnly :
    ((Instr.pinsrwMmM16 0#3 (ebp8 8#8) 1#8).memOperand = some (ebp8 8#8) ∧
      operandAddress (ssLimit 0x108) (ebp8 8#8) = (.ss, 0x108) ∧ StateReady .mmx (ssLimit 0x108) ∧
      PremisesReady (ssLimit 0x108) .ss ∧ (ssLimit 0x108).mode = .protectedMode ∧
      segLimitOK (ssLimit 0x108) .ss 0x108 2 = false) ∧
    ((small .virtual8086 0xFFFF#32).mode ≠ .protectedMode ∧
      operandAddress (small .virtual8086 0xFFFF#32) (.m16 (.based 6#3 (.full 0xFFFF#16))) = (.ss, 0xFFFF) ∧
      operandAddress (small .virtual8086 0xFFFF#32) bx = (.ds, 0xFFFF) ∧
      StateReady .xmm (small .virtual8086 0xFFFF#32) ∧ PremisesReady (small .virtual8086 0xFFFF#32) .ss ∧
      PremisesReady (small .virtual8086 0xFFFF#32) .ds ∧ 0xFFFF < 0xFFFF + 1) := by decide

/-- F19 in both modes, and a 32-bit operand above FFFFH. -/
theorem witness_OperandOutsideFfffRaisesGpOutsideProtectedMode :
    (Instr.pinsrwMmM16 1#3 bx 0#8).memOperand = some bx ∧ StateReady .mmx (small .realAddress 0xFFFF#32) ∧
    PremisesReady (small .realAddress 0xFFFF#32) .ds ∧
    operandAddress (small .realAddress 0xFFFF#32) bx = (.ds, 0xFFFF) ∧
    (small .realAddress 0xFFFF#32).mode = .realAddress ∧ (small .virtual8086 0xFFFF#32).mode = .virtual8086 ∧
    operandAddress (small .realAddress 0x10000#32) ebx = (.ds, 0x10000) ∧
    PremisesReady (small .realAddress 0x10000#32) .ds := by decide

/-- F18 in protected mode and F22 in virtual-8086 mode; real-address mode. -/
theorem witness_PageFaultRaisesPfOutsideRealAddressMode :
    ((Instr.pinsrwMmM16 2#3 (.m32 (.absolute 0x1FFF#32)) 0#8).memOperand = some (.m32 (.absolute 0x1FFF#32)) ∧
      operandAddress pageGone (.m32 (.absolute 0x1FFF#32)) = (.ds, 0x1FFF) ∧ StateReady .mmx pageGone ∧
      PremisesReady pageGone .ds ∧ LimitReady pageGone .ds 0x1FFF ∧ pageGone.mode = .protectedMode ∧
      translateOperand pageGone .ds 0x1FFF = .pageFault 7) ∧
    (LimitReady { small .virtual8086 0x2000#32 with translation := [⟨.ds, 0x1FFF, 0x2FFF, .pageFault 9⟩] } .ds 0x2000 ∧
      translateOperand { small .virtual8086 0x2000#32 with translation := [⟨.ds, 0x1FFF, 0x2FFF, .pageFault 9⟩] } .ds 0x2000 =
        .pageFault 9) ∧
    (small .realAddress 0x2000#32).mode = .realAddress := by decide

/-- The last word of a 16-bit and of a 32-bit space, and a two-range segment. -/
theorem witness_LimitTestCoversEveryByte :
    0 < 2 ∧ (SegLimit.expandUp 0xFFFFFFFF).covers .a16 0xFFFE 2 = true ∧ (SegLimit.expandUp 0xFFFFFFFF).covers .a16 0xFFFF 2 = false ∧
    (SegLimit.expandUp 0xFFFFFFFF).covers .a32 0xFFFFFFFE 2 = true ∧ (SegLimit.expandUp 0xFFFFFFFF).covers .a32 0xFFFFFFFF 2 = false ∧
    (SegLimit.offsets [(0, 9), (10, 20)]).covers .a32 9 2 = true ∧ (SegLimit.offsets [(0, 9), (11, 20)]).covers .a32 9 2 = false := by decide

/-- Alignment checking on, at an odd and at an even address; a segment that is not usable; an operand in device memory. -/
theorem witness_UnmetOperandPremisesAreRefused :
    ((Instr.pinsrwMmM16 2#3 (ebx8 1#8) 0#8).memOperand = some (ebx8 1#8) ∧
      operandAddress { demo with premises := { demo.premises with alignmentCheckingOff := false } } (ebx8 1#8) = (.ds, 0x1001) ∧
      StateReady .mmx { demo with premises := { demo.premises with alignmentCheckingOff := false } } ∧
      operandAddress { demo with premises := { demo.premises with alignmentCheckingOff := false } } ebx = (.ds, 0x1000)) ∧
    (({ demo with segs := { demo.segs with ds := ⟨false, .expandUp 0xFFFF⟩ } } : State).segs.get .ds).usable = false ∧
    (PremisesReady { demo with translation := [⟨.ds, 0x1000, 0x1000, .device⟩] } .ds ∧
      LimitReady { demo with translation := [⟨.ds, 0x1000, 0x1000, .device⟩] } .ds 0x1000 ∧
      translateOperand { demo with translation := [⟨.ds, 0x1000, 0x1000, .device⟩] } .ds 0x1000 = .device) := by decide

theorem witness_StepRunsTheDecodedInstruction :
    LaunchReady program ∧
    decode program.addrSize (program.text.drop program.pc) =
      .ok (.pinsrwXmmR32 0#3 0#3 0#8, [0x0F#8, 0xC4#8, 0xC0#8, 0x00#8]) := by decide

theorem witness_InstructionInTheTextRuns :
    (Instr.pinsrwMmR32 0#3 0#3 0#8).wellFormed = true ∧
    (Instr.pinsrwMmR32 0#3 0#3 0#8).fits ({ program with pc := 5 } : State).addrSize = true ∧
    LaunchReady program ∧
    program.text = encode (.pinsrwXmmR32 0#3 0#3 0#8) ++ encode (.pinsrwMmR32 0#3 0#3 0#8) ++ [] ∧
    ({ program with pc := 5 } : State).pc = (encode (.pinsrwXmmR32 0#3 0#3 0#8)).length := by decide

/-- Each refusal of the fetch. -/
theorem witness_StepStopsWhereNoInstructionRuns :
    refusalOf (step { program with premises := { program.premises with textFetchable := false } }) = some .textNotFetchable ∧
    refusalOf (step { program with premises := { program.premises with interruptsHarmless := false } }) = some .interruptPossible ∧
    refusalOf (step { program with premises := { program.premises with alignmentCheckingOff := false } }) = some .alignmentChecking ∧
    LaunchReady program ∧
    ({ program with pc := 9 } : State).Finished ∧ ¬ ({ program with pc := 8 } : State).Finished ∧
    decode program.addrSize (program.text.drop 8) = .error (.firstByte 0x00#8) ∧
    decode program.addrSize (program.text.drop 10) = .error .truncated := by decide

/-- Also the witness of RunsAdvanceThroughTheText. -/
theorem witness_StepKeepsTheInvariant : program.Inv ∧ (nextOf (step program)).isSome = true := by decide

theorem witness_CompletesExactlyWhenReady : Ready (.pinsrwMmM16 2#3 ebx 3#8) demo :=
  ⟨show StateReady .mmx demo by decide, fun m hm => by
    cases hm
    exact ⟨0x1000, 0x1001, by decide⟩⟩

/-- Two steps of P5, to the end of the text. -/
theorem witness_RunsKeepTheLaunchPremises :
    ∃ t, Host.Core.run Sys2Proof.core 2 program = .next t ∧ t.pc = 9 := ⟨_, rfl, rfl⟩

theorem witness_RunsAdvanceThroughTheText :
    program.Inv ∧ ∃ t, Host.Core.run Sys2Proof.core 2 program = .next t ∧ t.pc = 9 := ⟨by decide, _, rfl, rfl⟩

end Sys2Proof.Tests
end

section
/-! # Decoder and encoder are inverse (spec/30_encoding.md R37 to R47) -/

namespace Sys2Proof

/-! ## Displacements and memory operands -/

theorem decodeDisp32_mod_bytes (disp : Disp 32) (rest : List Byte) :
    decodeDisp32 disp.mod (disp.bytes bytes32 ++ rest) = .ok (disp, rest) := by
  cases disp <;> simp [decodeDisp32, Disp.mod, Disp.bytes, bytes32]

theorem decodeDisp16_mod_bytes (disp : Disp 16) (rest : List Byte) :
    decodeDisp16 disp.mod (disp.bytes bytes16 ++ rest) = .ok (disp, rest) := by
  cases disp <;> simp [decodeDisp16, Disp.mod, Disp.bytes, bytes16]

/-- `mod` has four values, and 11 is a register's. -/
theorem mod_eq_two {mod : BitVec 2} (h0 : mod ≠ 0#2) (h1 : mod ≠ 1#2) (h3 : mod ≠ 3#2) : mod = 2#2 := by
  revert mod; decide

/-- What `decodeDisp32` accepts is the bytes of the displacement it answers, under the `mod` of that displacement. -/
theorem decodeDisp32_eq_ok {mod : BitVec 2} {bs rest : List Byte} {disp : Disp 32} (hmod : mod ≠ 3#2)
    (h : decodeDisp32 mod bs = .ok (disp, rest)) : mod = disp.mod ∧ bs = disp.bytes bytes32 ++ rest := by
  unfold decodeDisp32 at h
  split at h
  · cases h; exact ⟨‹_›, rfl⟩
  · split at h
    · split at h <;> cases h
      exact ⟨‹_›, rfl⟩
    · split at h <;> cases h
      exact ⟨mod_eq_two ‹_› ‹_› hmod, by simp [Disp.bytes]⟩

/-- The same for 16-bit addressing. -/
theorem decodeDisp16_eq_ok {mod : BitVec 2} {bs rest : List Byte} {disp : Disp 16} (hmod : mod ≠ 3#2)
    (h : decodeDisp16 mod bs = .ok (disp, rest)) : mod = disp.mod ∧ bs = disp.bytes bytes16 ++ rest := by
  unfold decodeDisp16 at h
  split at h
  · cases h; exact ⟨‹_›, rfl⟩
  · split at h
    · split at h <;> cases h
      exact ⟨‹_›, rfl⟩
    · split at h <;> cases h
      exact ⟨mod_eq_two ‹_› ‹_› hmod, by simp [Disp.bytes]⟩

theorem Disp.mod_ne_three {w : Nat} (disp : Disp w) : disp.mod ≠ 3#2 := by
  cases disp <;> simp [Disp.mod]

theorem Disp.mod_eq_zero {w : Nat} {disp : Disp w} : disp.mod = 0#2 ↔ disp = .none := by
  cases disp <;> simp [Disp.mod]

/-- A 32-bit operand's encoding begins with a ModRM byte that is not a register's, and the bytes after it decode to the
operand. -/
theorem decodeMem32_encode (reg : RegNum) {m : Mem32} (h : m.wellFormed = true) :
    ∃ mod rm tail, mod ≠ 3#2 ∧ m.encode reg = packByte mod reg rm :: tail ∧
      ∀ rest, decodeMem32 mod rm (tail ++ rest) = .ok (m, rest) := by
  cases m with
  | based base disp =>
    refine ⟨_, _, _, disp.mod_ne_three, rfl, fun rest => ?_⟩
    simp only [Mem32.wellFormed, Bool.and_eq_true, Bool.or_eq_true, bne_iff_ne] at h
    obtain ⟨hsib, habs⟩ := h
    have : ¬ (disp.mod = 0#2 ∧ base = 5#3) := by rw [Disp.mod_eq_zero]; tauto
    simp [decodeMem32, hsib, this, decodeDisp32_mod_bytes]
  | absolute d =>
    exact ⟨_, _, _, by decide, rfl, fun rest => by simp [decodeMem32, bytes32]⟩
  | sib scale index base disp =>
    refine ⟨_, _, _, disp.mod_ne_three, rfl, fun rest => ?_⟩
    simp only [Mem32.wellFormed, Bool.or_eq_true, bne_iff_ne] at h
    have : ¬ (disp.mod = 0#2 ∧ base = 5#3) := by rw [Disp.mod_eq_zero]; tauto
    simp [decodeMem32, this, decodeDisp32_mod_bytes]
  | sibNoBase scale index d =>
    exact ⟨_, _, _, by decide, rfl, fun rest => by simp [decodeMem32, bytes32]⟩

/-- The same for 16-bit addressing. -/
theorem decodeMem16_encode (reg : RegNum) {m : Mem16} (h : m.wellFormed = true) :
    ∃ mod rm tail, mod ≠ 3#2 ∧ m.encode reg = packByte mod reg rm :: tail ∧
      ∀ rest, decodeMem16 mod rm (tail ++ rest) = .ok (m, rest) := by
  cases m with
  | based rm disp =>
    refine ⟨_, _, _, disp.mod_ne_three, rfl, fun rest => ?_⟩
    simp only [Mem16.wellFormed, Bool.or_eq_true, bne_iff_ne] at h
    have : ¬ (disp.mod = 0#2 ∧ rm = 6#3) := by rw [Disp.mod_eq_zero]; tauto
    simp [decodeMem16, this, decodeDisp16_mod_bytes]
  | absolute d =>
    exact ⟨_, _, _, by decide, rfl, fun rest => by simp [decodeMem16, bytes16]⟩

/-- The same under either address size. -/
theorem decodeMem_encode (reg : RegNum) {m : MemOperand} (h : m.wellFormed = true) :
    ∃ mod rm tail, mod ≠ 3#2 ∧ m.encode reg = packByte mod reg rm :: tail ∧
      ∀ rest, decodeMem m.addrSize mod rm (tail ++ rest) = .ok (m, rest) := by
  cases m with
  | m32 m =>
    obtain ⟨mod, rm, tail, hmod, henc, hdec⟩ := decodeMem32_encode reg h
    exact ⟨mod, rm, tail, hmod, henc, fun rest => by simp [decodeMem, MemOperand.addrSize, hdec]⟩
  | m16 m =>
    obtain ⟨mod, rm, tail, hmod, henc, hdec⟩ := decodeMem16_encode reg h
    exact ⟨mod, rm, tail, hmod, henc, fun rest => by simp [decodeMem, MemOperand.addrSize, hdec]⟩

/-- What `decodeMem32` accepts, with the ModRM byte before it, is the encoding of the well-formed operand it answers. -/
theorem decodeMem32_eq_ok {mod : BitVec 2} {rm : RegNum} {bs rest : List Byte} {m : Mem32} (hmod : mod ≠ 3#2)
    (h : decodeMem32 mod rm bs = .ok (m, rest)) (reg : RegNum) :
    m.wellFormed = true ∧ packByte mod reg rm :: bs = m.encode reg ++ rest := by
  unfold decodeMem32 at h
  split at h
  case isTrue hrm =>
    split at h
    · cases h
    · rename_i sib after
      split at h
      case isTrue hno =>
        split at h <;> cases h
        exact ⟨rfl, by simp [Mem32.encode, hrm, hno.1, ← hno.2, packByte_fields]⟩
      case isFalse hbase =>
        split at h <;> cases h
        obtain ⟨rfl, rfl⟩ := decodeDisp32_eq_ok hmod ‹_›
        rw [Disp.mod_eq_zero] at hbase
        exact ⟨by simp [Mem32.wellFormed]; tauto, by simp [Mem32.encode, hrm, packByte_fields]⟩
  case isFalse hrm =>
    split at h
    case isTrue habs =>
      split at h <;> cases h
      exact ⟨rfl, by simp [Mem32.encode, habs]⟩
    case isFalse habs =>
      split at h <;> cases h
      obtain ⟨rfl, rfl⟩ := decodeDisp32_eq_ok hmod ‹_›
      rw [Disp.mod_eq_zero] at habs
      exact ⟨by simp [Mem32.wellFormed, hrm]; tauto, by simp [Mem32.encode]⟩

/-- The same for 16-bit addressing. -/
theorem decodeMem16_eq_ok {mod : BitVec 2} {rm : RegNum} {bs rest : List Byte} {m : Mem16} (hmod : mod ≠ 3#2)
    (h : decodeMem16 mod rm bs = .ok (m, rest)) (reg : RegNum) :
    m.wellFormed = true ∧ packByte mod reg rm :: bs = m.encode reg ++ rest := by
  unfold decodeMem16 at h
  split at h
  case isTrue habs =>
    split at h <;> cases h
    exact ⟨rfl, by simp [Mem16.encode, habs]⟩
  case isFalse habs =>
    split at h <;> cases h
    obtain ⟨rfl, rfl⟩ := decodeDisp16_eq_ok hmod ‹_›
    rw [Disp.mod_eq_zero] at habs
    exact ⟨by simp [Mem16.wellFormed]; tauto, by simp [Mem16.encode]⟩

/-- The same under either address size. -/
theorem decodeMem_eq_ok {a : AddrSize} {mod : BitVec 2} {rm : RegNum} {bs rest : List Byte} {m : MemOperand}
    (hmod : mod ≠ 3#2) (h : decodeMem a mod rm bs = .ok (m, rest)) (reg : RegNum) :
    m.wellFormed = true ∧ m.addrSize = a ∧ packByte mod reg rm :: bs = m.encode reg ++ rest := by
  cases a <;> simp only [decodeMem] at h <;> split at h <;> cases h
  · obtain ⟨hwf, henc⟩ := decodeMem16_eq_ok hmod ‹_› reg
    exact ⟨hwf, rfl, henc⟩
  · obtain ⟨hwf, henc⟩ := decodeMem32_eq_ok hmod ‹_› reg
    exact ⟨hwf, rfl, henc⟩

/-! ## Instructions, by form -/

/-- The bytes before ModRM: `0F C4`, with a 66 before them in the 128-bit form (R38, R39). -/
def Form.opcode : Form → List Byte
  | .mmx => [0x0F#8, 0xC4#8]
  | .xmm => [0x66#8, 0x0F#8, 0xC4#8]

/-- Every instruction has a form, and is a register-source or a memory-source instruction of it. -/
theorem Instr.register_or_memory (i : Instr) :
    (∃ f d r imm, i = Form.registerInstr f d r imm) ∨ ∃ f d m imm, i = Form.memoryInstr f d m imm := by
  cases i with
  | pinsrwMmR32 d r imm => exact .inl ⟨.mmx, d, r, imm, rfl⟩
  | pinsrwMmM16 d m imm => exact .inr ⟨.mmx, d, m, imm, rfl⟩
  | pinsrwXmmR32 d r imm => exact .inl ⟨.xmm, d, r, imm, rfl⟩
  | pinsrwXmmM16 d m imm => exact .inr ⟨.xmm, d, m, imm, rfl⟩

@[simp] theorem registerInstr_wellFormed (f : Form) (d r : RegNum) (imm : Byte) :
    (f.registerInstr d r imm).wellFormed = true := by cases f <;> rfl
@[simp] theorem registerInstr_fits (f : Form) (d r : RegNum) (imm : Byte) (a : AddrSize) :
    (f.registerInstr d r imm).fits a = true := by cases f <;> rfl
@[simp] theorem memoryInstr_wellFormed (f : Form) (d : RegNum) (m : MemOperand) (imm : Byte) :
    (f.memoryInstr d m imm).wellFormed = m.wellFormed := by cases f <;> rfl
@[simp] theorem memoryInstr_fits (f : Form) (d : RegNum) (m : MemOperand) (imm : Byte) (a : AddrSize) :
    (f.memoryInstr d m imm).fits a = (m.addrSize == a) := by cases f <;> rfl

theorem encode_registerInstr (f : Form) (d r : RegNum) (imm : Byte) :
    encode (f.registerInstr d r imm) = f.opcode ++ [packByte 3#2 d r, imm] := by cases f <;> rfl

theorem encode_memoryInstr (f : Form) (d : RegNum) (m : MemOperand) (imm : Byte) :
    encode (f.memoryInstr d m imm) = f.opcode ++ (m.encode d ++ [imm]) := by cases f <;> rfl

/-- After the opcode bytes of a form, its operands are decoded. -/
theorem decode_opcode (f : Form) (a : AddrSize) (bs : List Byte) :
    decode a (f.opcode ++ bs) = decodeOperands f a bs := by
  cases f <;> simp [Form.opcode, decode, decodeAfter0F]

/-- What `decodeAfter0F` accepts begins with C4. -/
theorem decodeAfter0F_eq_ok {f : Form} {a : AddrSize} {bs : List Byte} {p : Instr × List Byte}
    (h : decodeAfter0F f a bs = .ok p) : ∃ after, bs = 0xC4#8 :: after ∧ decodeOperands f a after = .ok p := by
  unfold decodeAfter0F at h
  split at h
  · cases h
  · split at h
    · exact ⟨_, by simp [*], h⟩
    · cases h

/-- What the decoder accepts begins with the opcode bytes of a form. -/
theorem decode_eq_ok {a : AddrSize} {bs : List Byte} {p : Instr × List Byte} (h : decode a bs = .ok p) :
    ∃ f after, bs = Form.opcode f ++ after ∧ decodeOperands f a after = .ok p := by
  unfold decode at h
  split at h
  · cases h
  · split at h
    · obtain ⟨after, rfl, h⟩ := decodeAfter0F_eq_ok h
      exact ⟨.mmx, after, by simp [*, Form.opcode], h⟩
    · split at h
      · split at h
        · cases h
        · split at h
          · obtain ⟨after, rfl, h⟩ := decodeAfter0F_eq_ok h
            exact ⟨.xmm, after, by simp [*, Form.opcode], h⟩
          · split at h <;> cases h
      · cases h

/-- What `decodeOperands` accepts is the operand bytes of the instruction it answers. -/
theorem decodeOperands_eq_ok {f : Form} {a : AddrSize} {bs rest : List Byte} {i : Instr}
    (h : decodeOperands f a bs = .ok (i, rest)) :
    i.wellFormed = true ∧ i.fits a = true ∧ f.opcode ++ bs = encode i ++ rest := by
  unfold decodeOperands at h
  split at h
  · cases h
  · rename_i modRM after
    split at h
    case isTrue hreg =>
      split at h <;> cases h
      exact ⟨by simp, by simp, by simp [encode_registerInstr, ← hreg, packByte_fields]⟩
    case isFalse hmem =>
      split at h <;> cases h
      obtain ⟨hwf, ha, henc⟩ := decodeMem_eq_ok hmem ‹_› (regField modRM)
      rw [packByte_fields] at henc
      exact ⟨by simpa using hwf, by simpa using ha, by simp [encode_memoryInstr, henc]⟩

/-- Decoding the encoding of a well-formed instruction gives it back, with the bytes after it. -/
theorem decode_encode {a : AddrSize} {i : Instr} (hwf : i.wellFormed = true) (hfits : i.fits a = true) (rest : List Byte) :
    decode a (encode i ++ rest) = .ok (i, rest) := by
  obtain ⟨f, d, r, imm, rfl⟩ | ⟨f, d, m, imm, rfl⟩ := i.register_or_memory
  · rw [encode_registerInstr, List.append_assoc, decode_opcode]
    simp [decodeOperands]
  · obtain ⟨mod, rm, tail, hmod, henc, hdec⟩ := decodeMem_encode d (by simpa using hwf)
    obtain rfl : m.addrSize = a := by simpa using hfits
    rw [encode_memoryInstr, List.append_assoc, decode_opcode, henc]
    simp [decodeOperands, hmod, hdec]

/-- What the decoder accepts is the encoding of a well-formed instruction of the address size, and the bytes after it. -/
theorem decode_sound {a : AddrSize} {bs rest : List Byte} {i : Instr} (h : decode a bs = .ok (i, rest)) :
    i.wellFormed = true ∧ i.fits a = true ∧ bs = encode i ++ rest := by
  obtain ⟨f, after, rfl, hops⟩ := decode_eq_ok h
  exact decodeOperands_eq_ok hops

/-- The encoding of every instruction has its length, which is 4 to 10 bytes (R46). -/
theorem encodedLength (i : Instr) : Laws.EncodedLength.Statement i := by
  cases i with
  | pinsrwMmR32 d r imm => exact Laws.EncodedLength.pinsrwMmR32 d r imm
  | pinsrwMmM16 d m imm => exact Laws.EncodedLength.pinsrwMmM16 d m imm
  | pinsrwXmmR32 d r imm => exact Laws.EncodedLength.pinsrwXmmR32 d r imm
  | pinsrwXmmM16 d m imm => exact Laws.EncodedLength.pinsrwXmmM16 d m imm

theorem encode_length (i : Instr) : (encode i).length = i.length := (encodedLength i).1

theorem four_le_length (i : Instr) : 4 ≤ i.length := (encodedLength i).2.1

/-- The decoder consumes as many bytes as the instruction has. -/
theorem decode_length {a : AddrSize} {bs rest : List Byte} {i : Instr} (h : decode a bs = .ok (i, rest)) :
    bs.length = i.length + rest.length := by
  obtain ⟨-, -, rfl⟩ := decode_sound h
  rw [List.length_append, encode_length]

end Sys2Proof
end

section
/-! # What executing an instruction does (spec/40_pinsrw.md R51) -/

namespace Sys2Proof.Machine

open Sys2Proof

/-! ## One equation for the four forms -/

/-- Step 2 of R51: the source, a register or the zero-extended word of memory, and the state after reading it. -/
def readSource (s : State) : Instr → Result (Dword × State)
  | .pinsrwMmR32 _ r _ => .next (readR32 s r, s)
  | .pinsrwMmM16 _ m _ => andThen (readOperand s m) fun ws => .next (ws.1.zeroExtend 32, ws.2)
  | .pinsrwXmmR32 _ r _ => .next (readR32 s r, s)
  | .pinsrwXmmM16 _ m _ => andThen (readOperand s m) fun ws => .next (ws.1.zeroExtend 32, ws.2)

/-- Step 3 of R51: the source's low word into the destination's selected word. -/
def insertSource (i : Instr) (s : State) (source : Dword) : State :=
  match i.form with
  | .mmx => writeMm s i.dest (insertWord (readMm s i.dest) source i.word)
  | .xmm => writeXmm s i.dest (insertWord (readXmm s i.dest) source i.word)

@[simp] theorem andThen_next {α β : Type} (a : α) (f : α → Result β) : andThen (.next a) f = f a := rfl

theorem andThen_assoc {α β γ : Type} (x : Result α) (f : α → Result β) (g : β → Result γ) :
    andThen (andThen x f) g = andThen x fun a => andThen (f a) g := by
  cases x <;> rfl

/-- The steps of R51 in their order, whatever the form. -/
theorem exec_eq (i : Instr) (s : State) :
    exec i s = andThen (stateChecks i.form s) fun _ => andThen (readSource s i) fun vs =>
      .next (advancePc (insertSource i vs.2 vs.1) i.length) := by
  cases i with
  | pinsrwMmR32 d r imm =>
    simp only [exec, execPinsrwMmR32, sel64_eq_mod]
    rfl
  | pinsrwMmM16 d m imm =>
    simp only [exec, execPinsrwMmM16, sel64_eq_mod, readSource, andThen_assoc]
    rfl
  | pinsrwXmmR32 d r imm =>
    simp only [exec, execPinsrwXmmR32, sel128_eq_mod]
    rfl
  | pinsrwXmmM16 d m imm =>
    simp only [exec, execPinsrwXmmM16, sel128_eq_mod, readSource, andThen_assoc]
    rfl

theorem insertSource_of_mmx {i : Instr} (h : i.form = .mmx) (s : State) (v : Dword) :
    insertSource i s v = writeMm s i.dest (insertWord (readMm s i.dest) v i.word) := by
  simp [insertSource, h]

theorem insertSource_of_xmm {i : Instr} (h : i.form = .xmm) (s : State) (v : Dword) :
    insertSource i s v = writeXmm s i.dest (insertWord (readXmm s i.dest) v i.word) := by
  simp [insertSource, h]

/-! ## Reading the source -/

/-- A register form's source is its register, and reading it changes nothing. -/
theorem readSource_registerInstr (f : Form) (d r : RegNum) (imm : Byte) (s : State) :
    readSource s (f.registerInstr d r imm) = .next (readR32 s r, s) := by
  cases f <;> rfl

/-- A memory form's source is the zero-extended word of its operand. -/
theorem readSource_of_memOperand {i : Instr} {m : MemOperand} (h : i.memOperand = some m) (s : State) :
    readSource s i = andThen (readOperand s m) fun ws => .next (ws.1.zeroExtend 32, ws.2) := by
  cases i <;> cases h <;> rfl

theorem readSource_state_of_no_memOperand {i : Instr} {s : State} {vs : Dword × State} (h : i.memOperand = none)
    (hr : readSource s i = .next vs) : vs.2 = s := by
  cases i <;> cases h <;> cases hr <;> rfl

/-- Reading the source changes nothing but the counter of free values, and that only where a memory form reads oracle bytes. -/
theorem readSource_state {i : Instr} {s : State} {vs : Dword × State} (h : readSource s i = .next vs) :
    ∃ n, vs.2 = takeFree s n ∧ (i.memOperand = none ∨ s.premises.memoryQuiescent = true → n = 0) := by
  cases hm : i.memOperand with
  | none => exact ⟨0, readSource_state_of_no_memOperand hm h, fun _ => rfl⟩
  | some m =>
    rw [readSource_of_memOperand hm] at h
    obtain ⟨ws, hread, hnext⟩ := andThen_eq_next h
    cases hnext
    obtain ⟨pa0, pa1, -, rfl⟩ := ready_of_readOperand hread
    exact ⟨_, loadWord_state s pa0 pa1, by simp⟩

/-- The outcome of a register form: the state checks, then its register inserted. -/
theorem exec_registerInstr (f : Form) (d r : RegNum) (imm : Byte) (s : State) :
    exec (f.registerInstr d r imm) s = andThen (stateChecks f s) fun _ =>
      .next (advancePc (insertSource (f.registerInstr d r imm) s (readR32 s r)) (f.registerInstr d r imm).length) := by
  rw [exec_eq, readSource_registerInstr]
  cases f <;> rfl

/-! ## What a completed instruction has done -/

/-- An instruction that completes passed the state checks, read its source and inserted it; nothing else. -/
theorem exec_eq_next {i : Instr} {s t : State} (h : exec i s = .next t) :
    stateChecks i.form s = .next () ∧ ∃ v n, readSource s i = .next (v, takeFree s n) ∧
      t = advancePc (insertSource i (takeFree s n) v) i.length ∧
      (i.memOperand = none ∨ s.premises.memoryQuiescent = true → n = 0) := by
  rw [exec_eq] at h
  obtain ⟨_, hchecks, h⟩ := andThen_eq_next h
  obtain ⟨⟨v, u⟩, hread, hnext⟩ := andThen_eq_next h
  cases hnext
  obtain ⟨n, rfl, hn⟩ := readSource_state hread
  exact ⟨hchecks, v, n, hread, rfl, hn⟩

/-- What no insertion touches: the launch, the general-purpose registers, the flags, memory and text (R15). -/
theorem sameLaunch_insertSource (i : Instr) (s : State) (n len : Nat) (v : Dword) :
    SameLaunch s (advancePc (insertSource i (takeFree s n) v) len) := by
  cases hf : i.form
  · simp [SameLaunch, insertSource_of_mmx hf]
  · simp [SameLaunch, insertSource_of_xmm hf]

@[simp] theorem insertSource_pc (i : Instr) (s : State) (v : Dword) : (insertSource i s v).pc = s.pc := by
  cases hf : i.form
  · simp [insertSource_of_mmx hf]
  · simp [insertSource_of_xmm hf]

@[simp] theorem insertSource_freeCount (i : Instr) (s : State) (v : Dword) :
    (insertSource i s v).freeCount = s.freeCount := by
  cases hf : i.form
  · simp [insertSource_of_mmx hf]
  · simp [insertSource_of_xmm hf]

namespace SameLaunch

variable {s t : State}

theorem r32_eq (h : SameLaunch s t) : t.r32 = s.r32 := by
  obtain ⟨hr32, -⟩ := h; exact hr32

theorem eflags_eq (h : SameLaunch s t) : t.eflags = s.eflags := by
  obtain ⟨-, heflags, -⟩ := h; exact heflags

theorem mem_eq (h : SameLaunch s t) : t.mem = s.mem := by
  obtain ⟨-, -, -, -, -, -, -, -, -, -, -, -, hmem, -, -⟩ := h; exact hmem

theorem text_eq (h : SameLaunch s t) : t.text = s.text := by
  obtain ⟨-, -, -, -, -, -, -, -, -, -, -, -, -, htext, -⟩ := h; exact htext

end SameLaunch

theorem exec_sameLaunch {i : Instr} {s t : State} (h : exec i s = .next t) : SameLaunch s t := by
  obtain ⟨-, v, n, -, rfl, -⟩ := exec_eq_next h
  exact sameLaunch_insertSource i s n i.length v

theorem exec_pc {i : Instr} {s t : State} (h : exec i s = .next t) : t.pc = s.pc + i.length := by
  obtain ⟨-, v, n, -, rfl, -⟩ := exec_eq_next h
  simp

theorem exec_freeCount {i : Instr} {s t : State} (hi : i.memOperand = none ∨ s.premises.memoryQuiescent = true)
    (h : exec i s = .next t) : t.freeCount = s.freeCount := by
  obtain ⟨-, v, n, -, rfl, hn⟩ := exec_eq_next h
  simp [hn hi]

theorem readMm_insertSource {i : Instr} (hf : i.form = .mmx) (s : State) (v : Dword) (n : RegNum) :
    readMm (insertSource i s v) n = if n = i.dest then insertWord (readMm s i.dest) v i.word else readMm s n := by
  rw [insertSource_of_mmx hf, readMm_writeMm]

theorem readXmm_insertSource {i : Instr} (hf : i.form = .xmm) (s : State) (v : Dword) (n : RegNum) :
    readXmm (insertSource i s v) n = if n = i.dest then insertWord (readXmm s i.dest) v i.word else readXmm s n := by
  rw [insertSource_of_xmm hf, readXmm_writeXmm]

/-- The vector registers after a 64-bit form: the destination alone has changed. -/
theorem exec_vectors_of_mmx {i : Instr} {s t : State} (hf : i.form = .mmx) (h : exec i s = .next t) :
    (∀ n, n ≠ i.dest → readMm t n = readMm s n) ∧ ∀ n, readXmm t n = readXmm s n := by
  obtain ⟨-, v, k, -, rfl, -⟩ := exec_eq_next h
  exact ⟨fun n hn => by simp [readMm_insertSource hf, hn], fun n => by simp [insertSource_of_mmx hf]⟩

/-- The vector registers after a 128-bit form: the destination alone has changed. -/
theorem exec_vectors_of_xmm {i : Instr} {s t : State} (hf : i.form = .xmm) (h : exec i s = .next t) :
    (∀ n, n ≠ i.dest → readXmm t n = readXmm s n) ∧ ∀ n, readMm t n = readMm s n := by
  obtain ⟨-, v, k, -, rfl, -⟩ := exec_eq_next h
  exact ⟨fun n hn => by simp [readXmm_insertSource hf, hn], fun n => by simp [insertSource_of_xmm hf]⟩

/-- What every form leaves unchanged besides the vector registers. -/
theorem exec_frame {i : Instr} {s t : State} (h : exec i s = .next t) :
    (∀ n, readR32 t n = readR32 s n) ∧ SameLaunch s t ∧ (∀ a, readByte t.mem a = readByte s.mem a) ∧
      (i.memOperand = none ∨ s.premises.memoryQuiescent = true → t.freeCount = s.freeCount) := by
  have hsame := exec_sameLaunch h
  exact ⟨fun n => by rw [readR32, readR32, hsame.r32_eq], hsame, fun a => by rw [hsame.mem_eq],
    fun hi => exec_freeCount hi h⟩

/-! ## The insertion, word by word -/

/-- The words of an insertion: the selected one is the source's low word, every other one the destination's (R56). -/
theorem lane_insertWord {w : Nat} (dest : BitVec w) (source : Dword) (sel : Nat) {k : Nat} (hk : 16 * k + 16 ≤ w) :
    lane (insertWord dest source sel) k = if k = sel then lane source 0 else lane dest k := by
  apply BitVec.eq_of_getLsbD_eq
  intro j hj
  rw [getLsbD_lane _ _ _ hj, getLsbD_insertWord _ _ _ _ (by omega)]
  by_cases h : k = sel
  · subst h
    rw [if_pos (by omega), if_pos rfl, getLsbD_lane _ _ _ hj]
    congr 1; omega
  · rw [if_neg (by omega), if_neg h, getLsbD_lane _ _ _ hj]

/-- Of the source, an insertion sees the low word alone. -/
theorem insertWord_congr {w : Nat} (dest : BitVec w) {u v : Dword} (sel : Nat) (h : lane u 0 = lane v 0) :
    insertWord dest u sel = insertWord dest v sel := by
  apply BitVec.eq_of_getLsbD_eq
  intro i hi
  rw [getLsbD_insertWord _ _ _ _ hi, getLsbD_insertWord _ _ _ _ hi]
  split
  case isTrue hin =>
    have hlow : ∀ x : Dword, x.getLsbD (i - 16 * sel) = (lane x 0).getLsbD (i - 16 * sel) := fun x => by
      rw [getLsbD_lane _ _ _ (by omega), Nat.mul_zero, Nat.zero_add]
    rw [hlow u, hlow v, h]
  case isFalse => rfl

/-- The destination's selected word after a 64-bit insertion is the source's low word. -/
theorem lane_insertSource_of_mmx {i : Instr} (hf : i.form = .mmx) (s : State) (v : Dword) :
    lane (readMm (insertSource i s v) i.dest) i.word = lane v 0 := by
  have hword : i.word < 4 := by rw [Instr.word, hf]; exact Nat.mod_lt _ (by decide)
  rw [readMm_insertSource hf, if_pos rfl, lane_insertWord _ _ _ (by omega), if_pos rfl]

/-- The destination's selected word after a 128-bit insertion is the source's low word. -/
theorem lane_insertSource_of_xmm {i : Instr} (hf : i.form = .xmm) (s : State) (v : Dword) :
    lane (readXmm (insertSource i s v) i.dest) i.word = lane v 0 := by
  have hword : i.word < 8 := by rw [Instr.word, hf]; exact Nat.mod_lt _ (by decide)
  rw [readXmm_insertSource hf, if_pos rfl, lane_insertWord _ _ _ (by omega), if_pos rfl]

theorem insertSource_congr (i : Instr) (s : State) {u v : Dword} (h : lane u 0 = lane v 0) :
    insertSource i s u = insertSource i s v := by
  cases hf : i.form
  · rw [insertSource_of_mmx hf, insertSource_of_mmx hf, insertWord_congr _ _ h]
  · rw [insertSource_of_xmm hf, insertSource_of_xmm hf, insertWord_congr _ _ h]

/-! ## Where a fault is reported -/

theorem memRead_fault_pc {s : State} {seg : Seg} {ea : Nat} {e : Exception} {code : Option FaultCode} {pc : Nat}
    (h : memRead s seg ea = .fault (.exception e code pc)) : pc = s.pc := by
  rcases memRead_cases s seg ea with
    ⟨r, -, h'⟩ | ⟨-, e, -, h'⟩ | ⟨-, -, ⟨c, -, h'⟩ | ⟨-, h'⟩ | ⟨pa0, pa1, -, h'⟩⟩ <;>
    rw [h'] at h <;> cases h <;> rfl

theorem readSource_fault_pc {i : Instr} {s : State} {e : Exception} {code : Option FaultCode} {pc : Nat}
    (h : readSource s i = .fault (.exception e code pc)) : pc = s.pc := by
  cases hm : i.memOperand with
  | none => cases i <;> cases hm <;> cases h
  | some m =>
    rw [readSource_of_memOperand hm] at h
    obtain h | ⟨ws, -, h⟩ := andThen_eq_fault h
    · exact memRead_fault_pc h
    · cases h

theorem stateChecks_fault_pc {f : Form} {s : State} {e : Exception} {code : Option FaultCode} {pc : Nat}
    (h : stateChecks f s = .fault (.exception e code pc)) : pc = s.pc := by
  obtain ⟨h', -⟩ | ⟨e', -, h'⟩ := stateChecks_cases f s <;> rw [h'] at h <;> cases h
  rfl

theorem exec_fault_pc {i : Instr} {s : State} {e : Exception} {code : Option FaultCode} {pc : Nat}
    (h : exec i s = .fault (.exception e code pc)) : pc = s.pc := by
  rw [exec_eq] at h
  obtain h | ⟨-, -, h⟩ := andThen_eq_fault h
  · exact stateChecks_fault_pc h
  · obtain h | ⟨vs, -, h⟩ := andThen_eq_fault h
    · exact readSource_fault_pc h
    · cases h

end Sys2Proof.Machine
end

section
/-! # Changes of the state that an instruction does not see -/

namespace Sys2Proof.Machine

open Sys2Proof

theorem mapNext_eq_andThen (g : State → State) (x : Result State) : mapNext g x = andThen x fun t => .next (g t) := by
  cases x <;> rfl

/-- The address of an operand depends on the general-purpose registers alone. -/
theorem operandAddress_congr {s s' : State} (h : s'.r32 = s.r32) (m : MemOperand) :
    operandAddress s' m = operandAddress s m := by
  have hread : readR32 s' = readR32 s := funext fun n => by rw [readR32, readR32, h]
  have hidx : scaledIndex s' = scaledIndex s := by funext scale index; rw [scaledIndex, scaledIndex, hread]
  have hlow : low16 s' = low16 s := funext fun n => by rw [low16, low16, hread]
  have hbase : base16 s' = base16 s := funext fun rm => by rw [base16, base16, hlow]
  rcases m with m | m <;> cases m <;> simp [operandAddress, address32, address16, hread, hidx, hbase]

/-- A change `g` that the checks of the read do not see, and the load keeps, carries over to the outcome of the read. -/
theorem memRead_commutes {g : State → State} {s : State} {seg : Seg} {ea : Nat}
    (hr : operandRefusal (g s) seg = operandRefusal s seg) (hl : limitException (g s) seg ea = limitException s seg ea)
    (ht : translateOperand (g s) seg ea = translateOperand s seg ea) (hpc : (g s).pc = s.pc)
    (hload : ∀ pa0 pa1, translateOperand s seg ea = .physical pa0 pa1 →
      loadWord (g s) pa0 pa1 = ((loadWord s pa0 pa1).1, g (loadWord s pa0 pa1).2)) :
    memRead (g s) seg ea = andThen (memRead s seg ea) fun ws => .next (ws.1, g ws.2) := by
  unfold memRead raise
  rw [hr, hl, ht, hpc]
  cases operandRefusal s seg with
  | some r => rfl
  | none =>
    cases limitException s seg ea with
    | some e => rfl
    | none =>
      cases htgt : translateOperand s seg ea with
      | pageFault code => rfl
      | device => rfl
      | physical pa0 pa1 => simp only [hload pa0 pa1 htgt, andThen]

/-- A change `g` that the state checks and the source do not see, and the insertion keeps, carries over to the outcome. -/
theorem exec_commutes {g : State → State} {i : Instr} {s : State}
    (hchecks : stateChecks i.form (g s) = stateChecks i.form s) (hr32 : (g s).r32 = s.r32)
    (hread : ∀ m, i.memOperand = some m →
      readOperand (g s) m = andThen (readOperand s m) fun ws => .next (ws.1, g ws.2))
    (hinsert : ∀ u v, advancePc (insertSource i (g u) v) i.length = g (advancePc (insertSource i u v) i.length)) :
    exec i (g s) = mapNext g (exec i s) := by
  have hsource : readSource (g s) i = andThen (readSource s i) fun vs => .next (vs.1, g vs.2) := by
    cases hm : i.memOperand with
    | none => cases i <;> cases hm <;> simp [readSource, andThen, readR32, hr32]
    | some m =>
      rw [readSource_of_memOperand hm, readSource_of_memOperand hm, hread m hm]
      simp only [andThen_assoc, andThen_next]
  rw [exec_eq, exec_eq, hchecks, hsource]
  simp only [mapNext_eq_andThen, andThen_assoc, andThen_next, hinsert]

end Sys2Proof.Machine
end

section
/-! # The statements of the state family (spec/10_state.md) -/

namespace Sys2Proof.Machine

open Sys2Proof

/-- Settles O46: what is executed was decoded from the bytes at `pc`, so its length ends inside the text. -/
theorem stepKeepsTheInvariant : Obligations.StepKeepsTheInvariant := by
  rintro s t ⟨hwf, -⟩ hstep
  obtain ⟨i, rest, -, hdecode, hexec⟩ := step_eq_next.mp hstep
  have hsame := exec_sameLaunch hexec
  have hpc := exec_pc hexec
  have hbytes := decode_length hdecode
  have hlen := four_le_length i
  rw [List.length_drop] at hbytes
  refine ⟨⟨hsame.mem_eq ▸ hwf, ?_⟩, by omega⟩
  rw [hsame.text_eq]
  omega

/-- Settles O19: of the source an insertion sees the low word alone. -/
theorem highHalfOfTheSourceRegisterIsUnused : Obligations.HighHalfOfTheSourceRegisterIsUnused := by
  refine ⟨fun f d r imm s v hv => ?_, fun f d r imm s t h => ?_, fun i s t h => (exec_sameLaunch h).r32_eq⟩
  · have hread : readR32 { s with r32 := s.r32.set r.toNat v } r = v := by simp [readR32]
    have hchecks : stateChecks f { s with r32 := s.r32.set r.toNat v } = stateChecks f s := rfl
    rw [exec_registerInstr, exec_registerInstr, hread, hchecks, mapNext_eq_andThen, andThen_assoc,
      insertSource_congr _ _ hv]
    cases f <;> rfl
  · rw [exec_registerInstr] at h
    obtain ⟨-, -, hnext⟩ := andThen_eq_next h
    cases hnext
    cases f
    · exact lane_insertSource_of_mmx (i := .pinsrwMmR32 d r imm) rfl s (readR32 s r)
    · exact lane_insertSource_of_xmm (i := .pinsrwXmmR32 d r imm) rfl s (readR32 s r)

/-- Settles O22. -/
theorem frameOfThe64BitForms : Obligations.FrameOfThe64BitForms := by
  intro i s t hform h
  obtain ⟨hmm, hxmm⟩ := exec_vectors_of_mmx hform h
  exact ⟨hmm, hxmm, exec_frame h⟩

/-- Settles O23. -/
theorem frameOfThe128BitForms : Obligations.FrameOfThe128BitForms := by
  intro i s t hform h
  obtain ⟨hxmm, hmm⟩ := exec_vectors_of_xmm hform h
  exact ⟨hxmm, hmm, exec_frame h⟩

/-- Settles O24: neither the state checks nor the memory read nor the insertion sees the flags. -/
theorem flagsAreNeitherReadNorWritten : Obligations.FlagsAreNeitherReadNorWritten := by
  refine ⟨fun i s t h => (exec_sameLaunch h).eflags_eq, fun i s v => ?_⟩
  refine exec_commutes (g := fun t => { t with eflags := v }) rfl rfl (fun m _ => ?_) fun u x => ?_
  · rw [readOperand, operandAddress_congr rfl]
    refine memRead_commutes (g := fun t => { t with eflags := v }) rfl rfl rfl rfl fun pa0 pa1 _ => ?_
    cases hq : s.premises.memoryQuiescent <;> simp [loadWord, hq, takeFree]
  · cases i <;> rfl

/-- Settles O26. -/
theorem pcMovesPastTheInstruction : Obligations.PcMovesPastTheInstruction :=
  ⟨fun i _ _ h => by rw [encode_length]; exact exec_pc h, fun _ _ _ _ _ h => exec_fault_pc h⟩

/-- Settles O43: the bytes at `pc` decode to the instruction they encode. -/
theorem instructionInTheTextRuns : Obligations.InstructionInTheTextRuns := by
  intro s i before after hlaunch hwf hfits htext hpc
  have hdecode : decode s.addrSize (s.text.drop s.pc) = .ok (i, after) := by
    rw [htext, hpc, List.append_assoc, List.drop_left]
    exact decode_encode hwf hfits after
  rw [step, fetch_eq_ok.mpr ⟨hlaunch, after, hdecode⟩]

end Sys2Proof.Machine
end

section
/-! # Memory forms whose state rows hold, and the words they insert (spec/20_memory.md R28 to R36) -/

namespace Sys2Proof.Machine

open Sys2Proof

/-! ## The outcome of a memory form -/

/-- Where the state rows of R78 hold, the outcome of a memory form is decided by the read of its operand. -/
theorem exec_memory_of_stateReady {i : Instr} {s : State} {m : MemOperand} (hm : i.memOperand = some m)
    (hs : StateReady i.form s) :
    exec i s = andThen (readOperand s m) fun ws => .next (advancePc (insertSource i ws.2 (ws.1.zeroExtend 32)) i.length) := by
  rw [exec_eq, stateChecks_of_ready hs, andThen_next, readSource_of_memOperand hm, andThen_assoc]
  rfl

/-- A refusal of the read is the outcome of the memory form. -/
theorem exec_refused_of_memRead {i : Instr} {s : State} {m : MemOperand} {seg : Seg} {ea : Nat} {r : Refusal}
    (hm : i.memOperand = some m) (haddr : operandAddress s m = (seg, ea)) (hs : StateReady i.form s)
    (hread : memRead s seg ea = .refused r) : exec i s = .refused r := by
  rw [exec_memory_of_stateReady hm hs, readOperand, haddr, hread]
  rfl

/-- Where other agents may write memory, the word read is of two oracle bytes, and two free values have been taken. -/
theorem loadWord_of_not_quiescent {s : State} (hq : s.premises.memoryQuiescent = false) (pa0 pa1 : Nat) :
    loadWord s pa0 pa1 =
      (Config.oracleByte (s.freeCount + 1) ++ Config.oracleByte s.freeCount, takeFree s 2) := by
  rw [loadWord, hq]
  rfl

/-- The low word of a zero-extended word is the word. -/
theorem lane_zeroExtend (w : Word) : lane (w.zeroExtend 32) 0 = w := by
  apply BitVec.eq_of_getLsbD_eq
  intro j hj
  have h32 : j < 32 := by omega
  rw [getLsbD_lane _ _ _ hj]
  simp [h32]

/-- Where other agents may write memory, a memory form that is ready inserts a source whose low word is two oracle bytes. -/
theorem exec_of_oracleBytes {i : Instr} {s : State} {m : MemOperand} {pa0 pa1 : Nat} (hm : i.memOperand = some m)
    (hs : StateReady i.form s) (ho : OperandReady s m pa0 pa1) (hq : s.premises.memoryQuiescent = false) :
    ∃ v, lane v 0 = Config.oracleByte (s.freeCount + 1) ++ Config.oracleByte s.freeCount ∧
      exec i s = .next (advancePc (insertSource i (takeFree s 2) v) i.length) := by
  refine ⟨_, lane_zeroExtend _, ?_⟩
  rw [exec_memory_of_stateReady hm hs, readOperand_of_ready ho, loadWord_of_not_quiescent hq]
  rfl

/-! ## The word an insertion sets -/

/-- A 64-bit insertion sets the selected word to the source's low word, and no other word of any vector register. -/
theorem mmWordSet_insertSource {i : Instr} (hf : i.form = .mmx) (s : State) (n len : Nat) (v : Dword) :
    MmWordSet s (advancePc (insertSource i (takeFree s n) v) len) i.dest i.word (lane v 0) := by
  refine ⟨fun k hk => ?_, fun r hr => ?_, ?_⟩
  · rw [readMm_advancePc, readMm_insertSource hf, if_pos rfl, lane_insertWord _ _ _ (by omega), readMm_takeFree]
  · rw [readMm_advancePc, readMm_insertSource hf, if_neg hr, readMm_takeFree]
  · simp [insertSource_of_mmx hf]

/-- The same for a 128-bit insertion. -/
theorem xmmWordSet_insertSource {i : Instr} (hf : i.form = .xmm) (s : State) (n len : Nat) (v : Dword) :
    XmmWordSet s (advancePc (insertSource i (takeFree s n) v) len) i.dest i.word (lane v 0) := by
  refine ⟨fun k hk => ?_, fun r hr => ?_, ?_⟩
  · rw [readXmm_advancePc, readXmm_insertSource hf, if_pos rfl, lane_insertWord _ _ _ (by omega), readXmm_takeFree]
  · rw [readXmm_advancePc, readXmm_insertSource hf, if_neg hr, readXmm_takeFree]
  · simp [insertSource_of_xmm hf]

/-- What an insertion after `n` free values does besides the word: `pc`, the launch and the counter. -/
theorem effects_insertSource (i : Instr) (s : State) (n : Nat) (v : Dword) :
    (advancePc (insertSource i (takeFree s n) v) i.length).pc = s.pc + (encode i).length ∧
      SameLaunch s (advancePc (insertSource i (takeFree s n) v) i.length) ∧
      (advancePc (insertSource i (takeFree s n) v) i.length).freeCount = s.freeCount + n := by
  refine ⟨?_, sameLaunch_insertSource i s n i.length v, ?_⟩
  · simp [encode_length]
  · simp

/-! ## Refusals of the read -/

theorem memRead_of_operandRefusal {s : State} {seg : Seg} {r : Refusal} (h : operandRefusal s seg = some r) (ea : Nat) :
    memRead s seg ea = .refused r := by
  simp [memRead, h]

/-- With alignment checking on, the read is refused whatever the segment. -/
theorem operandRefusal_of_alignmentChecking {s : State} (h : s.premises.alignmentCheckingOff = false) (seg : Seg) :
    operandRefusal s seg = some .alignmentChecking := by
  rw [operandRefusal, if_pos h]

theorem operandRefusal_of_not_usable {s : State} {seg : Seg} (ha : s.premises.alignmentCheckingOff = true)
    (hmode : s.mode = .protectedMode) (hu : (s.segs.get seg).usable = false) :
    operandRefusal s seg = some (.segmentNotUsable seg) := by
  rw [operandRefusal, if_neg (by simp [ha]), if_pos ⟨hmode, hu⟩]

theorem memRead_of_device {s : State} {seg : Seg} {ea : Nat} (hp : PremisesReady s seg) (hl : LimitReady s seg ea)
    (ht : translateOperand s seg ea = .device) : memRead s seg ea = .refused .deviceMemory := by
  simp [memRead, operandRefusal_of_ready hp, limitException_of_ready hl, ht]

/-! ## Other memory -/

/-- Two bytes that memories agree on make the same word; where other agents may write memory, no byte of memory is read. -/
theorem loadWord_of_agreeing_memory {s : State} {mem : Memory} {pa0 pa1 : Nat}
    (h0 : readByte mem pa0 = readByte s.mem pa0) (h1 : readByte mem pa1 = readByte s.mem pa1) :
    loadWord { s with mem := mem } pa0 pa1 = ((loadWord s pa0 pa1).1, { (loadWord s pa0 pa1).2 with mem := mem }) := by
  cases hq : s.premises.memoryQuiescent
  · simp [loadWord, hq, takeFree]
  · simp [loadWord, hq, h0, h1]

/-- Reading an operand gives the same word in every memory that agrees on the two bytes it lies at. -/
theorem readOperand_of_agreeing_memory {s : State} {m : MemOperand} {mem : Memory} {pa0 pa1 : Nat}
    (ht : translateOperand s (operandAddress s m).1 (operandAddress s m).2 = .physical pa0 pa1)
    (h0 : readByte mem pa0 = readByte s.mem pa0) (h1 : readByte mem pa1 = readByte s.mem pa1) :
    readOperand { s with mem := mem } m =
      andThen (readOperand s m) fun ws => .next (ws.1, { ws.2 with mem := mem }) := by
  have haddr : operandAddress { s with mem := mem } m = operandAddress s m := operandAddress_congr rfl m
  rw [readOperand, haddr]
  refine memRead_commutes (g := fun t => { t with mem := mem }) rfl rfl rfl rfl fun a0 a1 ht' => ?_
  obtain ⟨rfl, rfl⟩ : pa0 = a0 ∧ pa1 = a1 := by simpa [ht] using ht'
  exact loadWord_of_agreeing_memory h0 h1

/-- An exception of the state checks is none of the memory exceptions. -/
theorem stateException_not_memory {f : Form} {s : State} {e : Exception} (h : e ∈ stateExceptions f s) :
    e ≠ .gp ∧ e ≠ .ss ∧ e ≠ .pf := by
  obtain ⟨rfl, -⟩ | ⟨rfl, -⟩ | ⟨rfl, -⟩ := mem_stateExceptions.mp h <;> decide

/-- Without a memory operand, what is raised is an exception of the state checks: reading a register raises nothing. -/
theorem raises_of_no_memOperand {i : Instr} {s : State} {e : Exception} {code : Option FaultCode}
    (hm : i.memOperand = none) (h : Raises i s e code) : e ∈ stateExceptions i.form s := by
  rw [Raises, exec_eq] at h
  obtain h | ⟨-, -, h⟩ := andThen_eq_fault h
  · obtain ⟨h', -⟩ | ⟨e', he', h'⟩ := stateChecks_cases i.form s <;> rw [h'] at h <;> cases h
    exact he'
  · cases i <;> cases hm <;> cases h

/-! ## The limit test -/

theorem covers_expandUp (l : Nat) (a : AddrSize) (ea n : Nat) :
    (SegLimit.expandUp l).covers a ea n = true ↔ ea + n ≤ l + 1 ∧ ea + n ≤ addressSpan a := by
  simp [SegLimit.covers]

theorem covers_offsets (ranges : List (Nat × Nat)) (a : AddrSize) (ea n : Nat) :
    (SegLimit.offsets ranges).covers a ea n = true ↔ ∀ k, k < n → ∃ r ∈ ranges, r.1 ≤ ea + k ∧ ea + k ≤ r.2 := by
  simp only [SegLimit.covers, List.all_eq_true, List.any_eq_true, List.mem_range, Bool.and_eq_true, decide_eq_true_eq]

end Sys2Proof.Machine
end

section
/-! # The statements of the memory family (spec/20_memory.md) -/

namespace Sys2Proof.Machine

open Sys2Proof

/-- Settles O17: the read takes two free values, one after the other, and the insertion is that of any source. -/
theorem oracleBytesWhereMemoryIsNotQuiescent : Obligations.OracleBytesWhereMemoryIsNotQuiescent := by
  intro s d m imm pa0 pa1 hoperand hq
  constructor
  · intro hstate
    obtain ⟨v, hv, hexec⟩ := exec_of_oracleBytes (i := .pinsrwMmM16 d m imm) rfl hstate hoperand hq
    exact ⟨_, hexec, hv ▸ mmWordSet_insertSource rfl s 2 _ v, effects_insertSource _ s 2 v⟩
  · intro hstate
    obtain ⟨v, hv, hexec⟩ := exec_of_oracleBytes (i := .pinsrwXmmM16 d m imm) rfl hstate hoperand hq
    exact ⟨_, hexec, hv ▸ xmmWordSet_insertSource rfl s 2 _ v, effects_insertSource _ s 2 v⟩

/-- Settles O25: memory is of what every completed instruction leaves as it was. -/
theorem noFormWritesMemory : Obligations.NoFormWritesMemory := by
  intro i s t h
  have hmem := (exec_sameLaunch h).mem_eq
  exact ⟨hmem, fun a => by rw [hmem]⟩

/-- Settles O27: a register form's checks and source see neither memory nor segments nor translation; a memory form's
read sees of memory the two bytes at its operand's physical addresses. -/
theorem whichBytesOfMemoryAreRead : Obligations.WhichBytesOfMemoryAreRead := by
  refine ⟨fun i s e code hm h => stateException_not_memory (raises_of_no_memOperand hm h), ?_, ?_⟩
  · intro i s mem segs rules hm
    refine exec_commutes (g := fun t => { t with mem := mem, segs := segs, translation := rules }) rfl rfl
      (fun m hm' => ?_) fun u v => ?_
    · rw [hm] at hm'
      cases hm'
    · cases i <;> rfl
  · rintro i s m pa0 pa1 mem hm ⟨-, -, htranslate⟩ h0 h1
    refine exec_commutes (g := fun t => { t with mem := mem }) rfl rfl (fun m' hm' => ?_) fun u v => ?_
    · obtain rfl : m = m' := by simpa [hm] using hm'
      exact readOperand_of_agreeing_memory htranslate h0 h1
    · cases i <;> rfl

/-- Settles O41: each premise is asked by the read, and a refusal of the read is that of the instruction. -/
theorem unmetOperandPremisesAreRefused : Obligations.UnmetOperandPremisesAreRefused := by
  intro i s m seg ea hm haddr hstate
  refine ⟨fun ha => ?_, fun ha hmode hu => ?_, fun hp hl ht => ?_⟩ <;>
    refine exec_refused_of_memRead hm haddr hstate ?_
  · exact memRead_of_operandRefusal (operandRefusal_of_alignmentChecking ha seg) ea
  · exact memRead_of_operandRefusal (operandRefusal_of_not_usable ha hmode hu) ea
  · exact memRead_of_device hp hl ht

/-- Settles O40: with a byte to cover, `ea + n <= l + 1` is `ea + n - 1 <= l`, and the span is the power of two. -/
theorem limitTestCoversEveryByte : Obligations.LimitTestCoversEveryByte := by
  intro a ea n hn
  refine ⟨fun l => ?_, fun ranges => covers_offsets ranges a ea n⟩
  rw [covers_expandUp]
  cases a <;> simp only [addressSpan] <;> omega

/-- Settles O45: no field that the fetch looks at is data memory. -/
theorem fetchIgnoresDataMemory : Obligations.FetchIgnoresDataMemory := fun _ _ => rfl

end Sys2Proof.Machine
end

section
/-! # Runs and the program text (spec/70_reset_and_hazards.md R80) -/

namespace Sys2Proof.Machine

open Sys2Proof

/-- A run of one step more that answers a next state is a step, and then a run. -/
theorem run_succ_eq_next {k : Nat} {s t : State} :
    Host.Core.run Sys2Proof.core (k + 1) s = .next t ↔
      ∃ u, step s = .next u ∧ Host.Core.run Sys2Proof.core k u = .next t := by
  rw [run_succ]
  cases step s <;> simp

/-- A step moves `pc` by the length of an instruction, and leaves the text alone. -/
theorem step_pc_text {s t : State} (h : step s = .next t) : s.pc + 4 ≤ t.pc ∧ t.pc ≤ s.pc + 10 ∧ t.text = s.text := by
  obtain ⟨i, -, -, -, hexec⟩ := step_eq_next.mp h
  obtain ⟨-, hmin, hmax⟩ := encodedLength i
  have hpc := exec_pc hexec
  exact ⟨by omega, by omega, (exec_sameLaunch hexec).text_eq⟩

/-- The bounds of a run's progress, one step at a time. -/
theorem run_advances {k : Nat} {s t : State} (hinv : s.Inv) (h : Host.Core.run Sys2Proof.core k s = .next t) :
    t.Inv ∧ s.pc + 4 * k ≤ t.pc ∧ t.pc ≤ s.pc + 10 * k ∧ t.text = s.text := by
  induction k generalizing s with
  | zero => cases h; exact ⟨hinv, by omega, by omega, rfl⟩
  | succ k ih =>
    obtain ⟨u, hstep, hrun⟩ := run_succ_eq_next.mp h
    obtain ⟨hlow, hhigh, htext⟩ := step_pc_text hstep
    obtain ⟨hinv', hlow', hhigh', htext'⟩ := ih (stepKeepsTheInvariant s u hinv hstep).1 hrun
    exact ⟨hinv', by omega, by omega, htext'.trans htext⟩

end Sys2Proof.Machine
end

section
/-! # Bytes that end before the instruction does (spec/30_encoding.md R46, R47) -/

namespace Sys2Proof

/-- A list that has no first four elements is shorter than four. -/
theorem length_lt_four {α : Type} {l : List α} (h : ∀ a b c d rest, l = a :: b :: c :: d :: rest → False) :
    l.length < 4 := by
  match l, h with
  | [], _ | [_], _ | [_, _], _ | [_, _, _], _ => simp
  | a :: b :: c :: d :: rest, h => exact (h a b c d rest rfl).elim

/-- A list that has no first two elements is shorter than two. -/
theorem length_lt_two {α : Type} {l : List α} (h : ∀ a b rest, l = a :: b :: rest → False) : l.length < 2 := by
  match l, h with
  | [], _ | [_], _ => simp
  | a :: b :: rest, h => exact (h a b rest rfl).elim

/-- Displacement bytes are refused only where they are too few. -/
theorem decodeDisp32_eq_error {mod : BitVec 2} {bs : List Byte} {e : DecodeRefusal} (h : decodeDisp32 mod bs = .error e) :
    e = .truncated ∧ bs.length < 4 := by
  unfold decodeDisp32 at h
  split at h
  · cases h
  · split at h
    · split at h <;> cases h
      exact ⟨rfl, by simp⟩
    · split at h <;> cases h
      exact ⟨rfl, length_lt_four ‹_›⟩

/-- The same for 16-bit addressing. -/
theorem decodeDisp16_eq_error {mod : BitVec 2} {bs : List Byte} {e : DecodeRefusal} (h : decodeDisp16 mod bs = .error e) :
    e = .truncated ∧ bs.length < 2 := by
  unfold decodeDisp16 at h
  split at h
  · cases h
  · split at h
    · split at h <;> cases h
      exact ⟨rfl, by simp⟩
    · split at h <;> cases h
      exact ⟨rfl, length_lt_two ‹_›⟩

/-- Operand bytes are refused only where they are too few; five, a SIB byte and a full displacement, are always enough. -/
theorem decodeMem32_eq_error {mod : BitVec 2} {rm : RegNum} {bs : List Byte} {e : DecodeRefusal}
    (h : decodeMem32 mod rm bs = .error e) : e = .truncated ∧ bs.length < 5 := by
  unfold decodeMem32 at h
  split at h
  case isTrue =>
    split at h
    · cases h; exact ⟨rfl, by simp⟩
    · rw [List.length_cons]
      split at h
      · split at h <;> cases h
        exact ⟨rfl, Nat.succ_lt_succ (length_lt_four ‹_›)⟩
      · split at h <;> cases h
        obtain ⟨rfl, hlen⟩ := decodeDisp32_eq_error ‹_›
        exact ⟨rfl, Nat.succ_lt_succ hlen⟩
  case isFalse =>
    split at h
    · split at h <;> cases h
      exact ⟨rfl, Nat.lt_succ_of_lt (length_lt_four ‹_›)⟩
    · split at h <;> cases h
      obtain ⟨rfl, hlen⟩ := decodeDisp32_eq_error ‹_›
      exact ⟨rfl, Nat.lt_succ_of_lt hlen⟩

/-- The same for 16-bit addressing, where two are enough. -/
theorem decodeMem16_eq_error {mod : BitVec 2} {rm : RegNum} {bs : List Byte} {e : DecodeRefusal}
    (h : decodeMem16 mod rm bs = .error e) : e = .truncated ∧ bs.length < 2 := by
  unfold decodeMem16 at h
  split at h
  · split at h <;> cases h
    exact ⟨rfl, length_lt_two ‹_›⟩
  · split at h <;> cases h
    exact decodeDisp16_eq_error ‹_›

/-- The same under either address size. -/
theorem decodeMem_eq_error {a : AddrSize} {mod : BitVec 2} {rm : RegNum} {bs : List Byte} {e : DecodeRefusal}
    (h : decodeMem a mod rm bs = .error e) : e = .truncated ∧ bs.length < 5 := by
  cases a <;> simp only [decodeMem] at h <;> split at h <;> cases h
  · obtain ⟨rfl, hlen⟩ := decodeMem16_eq_error ‹_›
    exact ⟨rfl, by omega⟩
  · exact decodeMem32_eq_error ‹_›

/-- After `0F C4` nothing is refused but the end of the bytes. -/
theorem decodeOperands_eq_error {f : Form} {a : AddrSize} {bs : List Byte} {e : DecodeRefusal}
    (h : decodeOperands f a bs = .error e) : e = .truncated := by
  unfold decodeOperands at h
  split at h
  · cases h; rfl
  · split at h
    · split at h <;> cases h; rfl
    · split at h <;> cases h
      · exact (decodeMem_eq_error ‹_›).1
      · rfl

/-- A refusal for a wrong byte stands whatever bytes come after. -/
theorem decodeAfter0F_append_of_error {f : Form} {a : AddrSize} {bs : List Byte} {e : DecodeRefusal}
    (h : decodeAfter0F f a bs = .error e) (he : e ≠ .truncated) (more : List Byte) :
    decodeAfter0F f a (bs ++ more) = .error e := by
  cases bs with
  | nil => cases h; exact absurd rfl he
  | cons b rest =>
    by_cases hb : b = 0xC4#8
    · subst hb
      exact absurd (decodeOperands_eq_error h) he
    · simpa [decodeAfter0F, hb] using h

/-- The same for the whole decoder. -/
theorem decode_append_of_error {a : AddrSize} {bs : List Byte} {e : DecodeRefusal} (h : decode a bs = .error e)
    (he : e ≠ .truncated) (more : List Byte) : decode a (bs ++ more) = .error e := by
  unfold decode at h
  split at h
  · cases h; exact absurd rfl he
  · split at h
    case isTrue hb => simpa [decode, hb] using decodeAfter0F_append_of_error h he more
    case isFalse hb =>
      split at h
      case isFalse h66 => simpa [decode, hb, h66] using h
      case isTrue h66 =>
        split at h
        · cases h; exact absurd rfl he
        · split at h
          case isTrue hc => simpa [decode, h66, hc] using decodeAfter0F_append_of_error h he more
          case isFalse hc => simpa [decode, h66, hc] using h

theorem decode_encode_nil {a : AddrSize} {i : Instr} (hwf : i.wellFormed = true) (hfits : i.fits a = true) :
    decode a (encode i) = .ok (i, []) := by
  simpa using decode_encode hwf hfits []

/-- Bytes that decode only with more after them are refused as truncated: another refusal would stand, and another
instruction would be the one that the longer list decodes to. -/
theorem decode_eq_truncated {a : AddrSize} {i : Instr} {bs more : List Byte} (h : decode a (bs ++ more) = .ok (i, []))
    (hmore : more ≠ []) : decode a bs = .error .truncated := by
  cases hbs : decode a bs with
  | error e =>
    by_cases he : e = .truncated
    · rw [he]
    · rw [decode_append_of_error hbs he more] at h
      cases h
  | ok p =>
    obtain ⟨j, rest⟩ := p
    obtain ⟨hwf, hfits, rfl⟩ := decode_sound hbs
    rw [List.append_assoc, decode_encode hwf hfits] at h
    simp [hmore] at h

/-! ## What a ModRM byte decodes to, in either form -/

theorem decodeOperands_of_register {m : Byte} (hm : modField m = 3#2) (f : Form) (a : AddrSize) (imm : Byte)
    (rest : List Byte) :
    decodeOperands f a (m :: imm :: rest) = .ok (f.registerInstr (regField m) (rmField m) imm, rest) := by
  simp [decodeOperands, hm]

theorem decodeOperands_of_memory {a : AddrSize} {m imm : Byte} {bytes rest : List Byte} {mem : MemOperand}
    (hm : modField m ≠ 3#2) (h : decodeMem a (modField m) (rmField m) bytes = .ok (mem, imm :: rest)) (f : Form) :
    decodeOperands f a (m :: bytes) = .ok (f.memoryInstr (regField m) mem imm, rest) := by
  simp [decodeOperands, hm, h]

/-- Six bytes after a ModRM byte that is not a register's hold a memory operand and a count. -/
theorem decodeMem_of_six_bytes {a : AddrSize} {mod : BitVec 2} (hmod : mod ≠ 3#2) (rm : RegNum) {bytes : List Byte}
    (hlen : 6 ≤ bytes.length) : ∃ mem imm rest, decodeMem a mod rm bytes = .ok (mem, imm :: rest) := by
  cases h : decodeMem a mod rm bytes with
  | error e =>
    obtain ⟨-, hshort⟩ := decodeMem_eq_error h
    omega
  | ok p =>
    obtain ⟨mem, after⟩ := p
    have hbytes := congrArg List.length (decodeMem_eq_ok hmod h 0#3).2.2
    have hextra := Laws.memOperand_extraBytes_le mem
    simp only [List.length_cons, List.length_append, Laws.memOperand_encode_length] at hbytes
    cases after with
    | nil => simp at hbytes; omega
    | cons imm rest => exact ⟨mem, imm, rest, rfl⟩

/-! ## The byte 66, and the count -/

theorem toXmm_wellFormed (i : Instr) : i.toXmm.wellFormed = i.wellFormed := by cases i <;> rfl

theorem toXmm_fits (i : Instr) (a : AddrSize) : i.toXmm.fits a = i.fits a := by cases i <;> rfl

/-- A 64-bit form's bytes with 66 before them are those of the 128-bit form with the same operands (R39). -/
theorem encode_toXmm {i : Instr} (h : i.form = .mmx) : encode i.toXmm = 0x66#8 :: encode i := by
  cases i <;> cases h <;> rfl

/-- The encoding begins with 66 in the 128-bit form and in no other. -/
theorem form_eq_xmm_iff (i : Instr) (rest : List Byte) : i.form = .xmm ↔ (encode i ++ rest).head? = some 0x66#8 := by
  cases i <;> simp [Instr.form, encode]

/-- The count is the last byte (R45). -/
theorem encode_getLast? (i : Instr) : (encode i).getLast? = some i.count := by
  obtain ⟨f, d, r, imm, rfl⟩ | ⟨f, d, m, imm, rfl⟩ := i.register_or_memory
  · rw [encode_registerInstr]; cases f <;> rfl
  · rw [encode_memoryInstr, ← List.append_assoc, List.getLast?_concat]; cases f <;> rfl

/-! ## Lengths -/

/-- At most five bytes stand between ModRM and the immediate; in 16-bit addressing, which has no SIB byte and displacements of
two bytes (R44), at most two. -/
theorem extraBytes_le_of_addrSize {m : MemOperand} {a : AddrSize} (h : m.addrSize = a) :
    m.extraBytes ≤ 5 ∧ (a = .a16 → m.extraBytes ≤ 2) := by
  refine ⟨Laws.memOperand_extraBytes_le m, fun ha => ?_⟩
  match m, h.trans ha with
  | .m16 (.based _ disp), _ => exact Laws.disp_size_le 2 (by decide) disp
  | .m16 (.absolute _), _ => exact Nat.le_refl 2

end Sys2Proof
end

section
/-! # Operand addresses from the bytes (spec/30_encoding.md R43, R44), and counts that select one word (R45) -/

namespace Sys2Proof.Machine

open Sys2Proof

/-- The bytes of a well-formed operand, and a count after them, are those of a memory source at the operand's address. -/
theorem operandAt_encode {m : MemOperand} (h : m.wellFormed = true) (reg : RegNum) (imm : Byte) (s : State) :
    OperandAt m.addrSize (m.encode reg ++ [imm]) s (operandAddress s m).1 (operandAddress s m).2 := by
  refine ⟨reg, m, imm, ?_, ?_, rfl⟩
  · exact decode_encode_nil (i := .pinsrwMmM16 reg m imm) h (beq_self_eq_true _)
  · exact decode_encode_nil (i := .pinsrwXmmM16 reg m imm) h (beq_self_eq_true _)

/-- The same for an operand of 32-bit addressing, at an address and in bytes written otherwise. -/
theorem operandAt_of_mem32 {m : Mem32} {reg : RegNum} {imm : Byte} {bytes : List Byte} {s : State} {seg : Seg} {ea : Dword}
    (h : m.wellFormed = true) (hbytes : bytes = m.encode reg ++ [imm]) (haddr : address32 s m = (seg, ea)) :
    OperandAt .a32 bytes s seg ea.toNat := by
  have hat := operandAt_encode (m := .m32 m) h reg imm s
  rw [operandAddress, haddr] at hat
  exact hbytes ▸ hat

/-- The same for an operand of 16-bit addressing. -/
theorem operandAt_of_mem16 {m : Mem16} {reg : RegNum} {imm : Byte} {bytes : List Byte} {s : State} {seg : Seg} {ea : Word}
    (h : m.wellFormed = true) (hbytes : bytes = m.encode reg ++ [imm]) (haddr : address16 s m = (seg, ea)) :
    OperandAt .a16 bytes s seg ea.toNat := by
  have hat := operandAt_encode (m := .m16 m) h reg imm s
  rw [operandAddress, haddr] at hat
  exact hbytes ▸ hat

/-- A change of count that selects the same word changes nothing that an instruction does (R45). -/
theorem exec_withCount {i : Instr} {imm : Byte} (h : (i.withCount imm).word = i.word) (s : State) :
    exec (i.withCount imm) s = exec i s := by
  have hinsert : insertSource (i.withCount imm) = insertSource i := by
    funext u v
    unfold insertSource
    rw [h]
    cases i <;> rfl
  rw [exec_eq, exec_eq, hinsert]
  cases i <;> rfl

end Sys2Proof.Machine
end

section
/-! # The statements of the encoding family (spec/30_encoding.md) -/

namespace Sys2Proof.Machine

open Sys2Proof

/-- Settles O1. -/
theorem decodeOfEncodeIsTheInstruction : Obligations.DecodeOfEncodeIsTheInstruction :=
  fun _ _ rest hwf hfits => decode_encode hwf hfits rest

/-- Settles O2. -/
theorem decodeAcceptsOnlyEncodings : Obligations.DecodeAcceptsOnlyEncodings :=
  fun _ _ _ _ h => decode_sound h

/-- Settles O50: the text is as long after the run as before it, and `pc` ends inside it. -/
theorem runsAdvanceThroughTheText : Obligations.RunsAdvanceThroughTheText := by
  intro k s t hinv h
  obtain ⟨⟨hwf, hpc⟩, hlow, hhigh, htext⟩ := run_advances hinv h
  refine ⟨⟨hwf, hpc⟩, hlow, hhigh, ?_⟩
  rw [htext] at hpc
  omega

/-- Settles O4: what decodes is an encoding, and 66 before a 64-bit form's encoding is the 128-bit form's. -/
theorem byte66SelectsTheXmmForm : Obligations.Byte66SelectsTheXmmForm := by
  refine ⟨fun a bs i rest h => ?_, fun a bs i rest h hform => ?_⟩ <;> obtain ⟨hwf, hfits, rfl⟩ := decode_sound h
  · exact form_eq_xmm_iff i rest
  · refine ⟨?_, ?_⟩
    · rw [← List.cons_append, ← encode_toXmm hform]
      exact decode_encode (by rwa [toXmm_wellFormed]) (by rwa [toXmm_fits]) rest
    · cases i <;> cases hform <;> exact ⟨rfl, rfl, rfl, rfl, rfl, rfl⟩

/-- Settles O5. -/
theorem otherByteSequencesRefused : Obligations.OtherByteSequencesRefused := by
  refine ⟨fun a b rest h66 h0F => ?_, fun a => ?_, fun a b rest h0F => ?_, fun a b rest hC4 => ⟨?_, ?_⟩, by decide, rfl, rfl,
    rfl, rfl⟩
  · simp [decode, h66, h0F]
  · cases a <;> decide
  · by_cases h66 : b = 0x66#8 <;> simp [decode, h66, h0F]
  · simp [decode, decodeAfter0F, hC4]
  · simp [decode, decodeAfter0F, hC4]

/-- Settles O6: with the bytes cut off put back, the instruction decodes. -/
theorem instructionCutShortIsTruncated : Obligations.InstructionCutShortIsTruncated := by
  intro a i n hwf hfits hn
  refine decode_eq_truncated (i := i) (more := (encode i).drop n) ?_ ?_
  · rw [List.take_append_drop]
    exact decode_encode_nil hwf hfits
  · rwa [ne_eq, List.drop_eq_nil_iff, encode_length, Nat.not_le]

/-- Settles O7: both forms decode their operands alike. -/
theorem everyModRmByteDecodes : Obligations.EveryModRmByteDecodes := by
  refine ⟨fun a m imm rest hm => ?_, fun a m bytes hm hlen => ?_⟩
  · have h := fun f => (decode_opcode f a _).trans (decodeOperands_of_register hm f a imm rest)
    exact ⟨h .mmx, h .xmm⟩
  · obtain ⟨mem, imm, rest, hmem⟩ := decodeMem_of_six_bytes hm (rmField m) hlen
    have h := fun f => (decode_opcode f a _).trans (decodeOperands_of_memory hm hmem f)
    exact ⟨mem, imm, rest, h .mmx, h .xmm⟩

/-- Settles O8: the ranges are those of the SIB and displacement bytes of an address size. -/
theorem lengthsByForm : Obligations.LengthsByForm := by
  intro a bs i rest h
  refine ⟨decode_length h, ?_⟩
  obtain ⟨-, hfits, -⟩ := decode_sound h
  cases i with
  | pinsrwMmR32 d r imm => rfl
  | pinsrwXmmR32 d r imm => rfl
  | pinsrwMmM16 d m imm =>
    obtain ⟨h5, h2⟩ := extraBytes_le_of_addrSize (eq_of_beq hfits)
    cases a with
    | a16 => have := h2 rfl; simp only [Instr.length]; omega
    | a32 => simp only [Instr.length]; omega
  | pinsrwXmmM16 d m imm =>
    obtain ⟨h5, h2⟩ := extraBytes_le_of_addrSize (eq_of_beq hfits)
    cases a with
    | a16 => have := h2 rfl; simp only [Instr.length]; omega
    | a32 => simp only [Instr.length]; omega

/-- Settles O9: each row is the encoding of one operand term. -/
theorem operandAddresses32 : Obligations.OperandAddresses32 := by
  intro s reg rm index base scale b b0 b1 b2 b3 imm disp8 disp32 sib idx baseSeg rmSeg
  have hdisp32 : bytes32 disp32 = [b0, b1, b2, b3] := bytes32_le32 b0 b1 b2 b3
  refine ⟨fun h4 h5 => ?_, ?_, fun h4 => ?_, fun h4 => ?_, fun h5 => ?_, fun h5 => ?_, ?_, ?_⟩
  · exact operandAt_of_mem32 (m := .based rm .none) (by simp [Mem32.wellFormed, h4, h5]) rfl
      (by simp [address32, dispValue, h5])
  · exact operandAt_of_mem32 (m := .absolute disp32) (reg := reg) (imm := imm) rfl (by rw [Mem32.encode, hdisp32]; rfl) rfl
  · exact operandAt_of_mem32 (m := .based rm (.disp8 b)) (by simp [Mem32.wellFormed, h4]) rfl rfl
  · exact operandAt_of_mem32 (m := .based rm (.full disp32)) (reg := reg) (imm := imm) (by simp [Mem32.wellFormed, h4])
      (by rw [Mem32.encode, Disp.bytes, hdisp32]; rfl) rfl
  · exact operandAt_of_mem32 (m := .sib scale index base .none) (by simp [Mem32.wellFormed, h5]) rfl
      (by rw [address32, dispValue, BitVec.add_zero]; rfl)
  · subst h5
    exact operandAt_of_mem32 (m := .sibNoBase scale index disp32) (reg := reg) (imm := imm) rfl
      (by rw [Mem32.encode, hdisp32]; rfl) rfl
  · exact operandAt_of_mem32 (m := .sib scale index base (.disp8 b)) rfl rfl rfl
  · exact operandAt_of_mem32 (m := .sib scale index base (.full disp32)) (reg := reg) (imm := imm) rfl
      (by rw [Mem32.encode, Disp.bytes, hdisp32]; rfl) rfl

/-- Settles O10: each row of the table gives the base expression and the segment of its `rm`. -/
theorem operandAddresses16 : Obligations.OperandAddresses16 := by
  intro s reg b b0 b1 imm bx bp si di disp8 disp16 rows
  have hdisp16 : bytes16 disp16 = [b0, b1] := bytes16_le16 b0 b1
  have hrows : ∀ row ∈ rows, base16 s row.1 = row.2.1 ∧ seg16 row.1 = row.2.2 := by
    simp only [rows, List.forall_mem_cons]
    refine ⟨?_, ?_, ?_, ?_, ?_, ?_, ?_, ?_, by simp⟩ <;> exact ⟨rfl, rfl⟩
  refine ⟨fun row hrow => ?_, ?_⟩
  · obtain ⟨hbase, hseg⟩ := hrows row hrow
    rw [← hbase, ← hseg]
    refine ⟨fun h6 => ?_, ?_, ?_⟩
    · exact operandAt_of_mem16 (m := .based row.1 .none) (by simp [Mem16.wellFormed, h6]) rfl
        (by rw [address16, dispValue, BitVec.add_zero])
    · exact operandAt_of_mem16 (m := .based row.1 (.disp8 b)) rfl rfl rfl
    · exact operandAt_of_mem16 (m := .based row.1 (.full disp16)) (reg := reg) (imm := imm) rfl
        (by rw [Mem16.encode, Disp.bytes, hdisp16]; rfl) rfl
  · exact operandAt_of_mem16 (m := .absolute disp16) (reg := reg) (imm := imm) rfl (by rw [Mem16.encode, hdisp16]; rfl) rfl

/-- Settles O18. -/
theorem onlyTheLowCountBitsMatter : Obligations.OnlyTheLowCountBitsMatter := by
  refine ⟨encode_getLast?, by decide, fun i s imm h => exec_withCount ?_ s⟩
  cases i <;> exact h

end Sys2Proof.Machine
end

section
/-! # Sources that stay as they were, and insertions one after another (spec/40_pinsrw.md R51 to R57) -/

namespace Sys2Proof.Machine

open Sys2Proof

/-! ## An instruction whose premises hold -/

/-- Where the state rows of R78 hold, a register form completes with its register inserted. -/
theorem exec_register_of_stateReady {f : Form} {s : State} (hs : StateReady f s) (d r : RegNum) (imm : Byte) :
    exec (f.registerInstr d r imm) s =
      .next (advancePc (insertSource (f.registerInstr d r imm) s (readR32 s r)) (f.registerInstr d r imm).length) := by
  rw [exec_registerInstr, stateChecks_of_ready hs, andThen_next]

/-- Where memory is quiescent, the word read is memory's two bytes, and no free value is taken. -/
theorem loadWord_of_quiescent {s : State} (hq : s.premises.memoryQuiescent = true) (pa0 pa1 : Nat) :
    loadWord s pa0 pa1 = (readByte s.mem pa1 ++ readByte s.mem pa0, s) := by
  rw [loadWord, if_pos hq]
  rfl

/-- Where memory is quiescent, a memory form that is ready inserts a source whose low word is memory's two bytes. -/
theorem exec_of_memoryBytes {i : Instr} {s : State} {m : MemOperand} {pa0 pa1 : Nat} (hm : i.memOperand = some m)
    (hs : StateReady i.form s) (ho : OperandReady s m pa0 pa1) (hq : s.premises.memoryQuiescent = true) :
    ∃ v, lane v 0 = readByte s.mem pa1 ++ readByte s.mem pa0 ∧
      exec i s = .next (advancePc (insertSource i s v) i.length) := by
  refine ⟨_, lane_zeroExtend _, ?_⟩
  rw [exec_memory_of_stateReady hm hs, readOperand_of_ready ho, loadWord_of_quiescent hq]
  rfl

/-! ## Readiness in another state of the same launch -/

theorem stateReady_of_stateChecks {f : Form} {s : State} (h : stateChecks f s = .next ()) : StateReady f s := by
  obtain ⟨-, hnil⟩ | ⟨e, -, hfault⟩ := stateChecks_cases f s
  · exact stateExceptions_eq_nil.mp hnil
  · rw [hfault] at h
    cases h

theorem SameLaunch.refl (s : State) : SameLaunch s s := by simp [SameLaunch]

theorem SameLaunch.premises_eq {s t : State} (h : SameLaunch s t) : t.premises = s.premises := by
  obtain ⟨-, -, -, -, -, -, -, -, -, -, -, -, -, -, hpremises⟩ := h; exact hpremises

theorem SameLaunch.stateReady {f : Form} {s t : State} (h : SameLaunch s t) (hs : StateReady f s) : StateReady f t := by
  obtain ⟨-, -, hem, hts, hosfxsr, hsse2, hmm, hx87, -⟩ := h
  simpa only [StateReady, hem, hts, hosfxsr, hsse2, hmm, hx87] using hs

theorem SameLaunch.operandReady {s t : State} {m : MemOperand} {pa0 pa1 : Nat} (h : SameLaunch s t)
    (ho : OperandReady s m pa0 pa1) : OperandReady t m pa0 pa1 := by
  obtain ⟨hr32, -, -, -, -, -, -, -, hmode, haddr, hsegs, htranslation, -, -, hpremises⟩ := h
  simpa only [OperandReady, PremisesReady, LimitReady, segLimitOK, translateOperand, operandAddress_congr hr32, hmode,
    haddr, hsegs, htranslation, hpremises] using ho

/-- A source that is no oracle's is read alike in every state of the launch. -/
theorem readSource_of_sameLaunch {i : Instr} {s t u : State} {v : Dword} (hsame : SameLaunch s t)
    (hi : i.memOperand = none ∨ s.premises.memoryQuiescent = true) (h : readSource s i = .next (v, u)) :
    readSource t i = .next (v, t) := by
  cases hm : i.memOperand with
  | none => cases i <;> cases hm <;> cases h <;> simp [readSource, readR32, hsame.r32_eq]
  | some m =>
    have hq : s.premises.memoryQuiescent = true := by simpa [hm] using hi
    rw [readSource_of_memOperand hm] at h ⊢
    obtain ⟨ws, hread, hnext⟩ := andThen_eq_next h
    obtain ⟨pa0, pa1, ho, rfl⟩ := ready_of_readOperand hread
    rw [loadWord_of_quiescent hq] at hnext
    cases hnext
    rw [readOperand_of_ready (hsame.operandReady ho), loadWord_of_quiescent (by rw [hsame.premises_eq, hq]), hsame.mem_eq,
      andThen_next]

/-- An instruction that completes, with a source that is no oracle's, inserts one value in every state of the launch. -/
theorem exec_of_sameLaunch {i : Instr} {s si : State} (hi : i.memOperand = none ∨ s.premises.memoryQuiescent = true)
    (h : exec i s = .next si) :
    ∃ v, ∀ t, SameLaunch s t → exec i t = .next (advancePc (insertSource i t v) i.length) := by
  obtain ⟨hchecks, v, n, hread, -, -⟩ := exec_eq_next h
  refine ⟨v, fun t hsame => ?_⟩
  rw [exec_eq, stateChecks_of_ready (hsame.stateReady (stateReady_of_stateChecks hchecks)), andThen_next,
    readSource_of_sameLaunch hsame hi hread, andThen_next]

/-! ## Two insertions into one value -/

/-- Of two insertions into one word the later decides it. -/
theorem insertWord_insertWord {w : Nat} (dest : BitVec w) (u v : Dword) (sel : Nat) :
    insertWord (insertWord dest u sel) v sel = insertWord dest v sel := by
  apply BitVec.eq_of_getLsbD_eq
  intro i hi
  simp only [getLsbD_insertWord _ _ _ _ hi]
  split <;> rfl

/-- Insertions into different words write different bits. -/
theorem insertWord_comm {w : Nat} (dest : BitVec w) (u v : Dword) {sel sel' : Nat} (hne : sel ≠ sel') :
    insertWord (insertWord dest u sel) v sel' = insertWord (insertWord dest v sel') u sel := by
  apply BitVec.eq_of_getLsbD_eq
  intro i hi
  simp only [getLsbD_insertWord _ _ _ _ hi]
  by_cases h : 16 * sel ≤ i ∧ i < 16 * sel + 16
  · have h' : ¬ (16 * sel' ≤ i ∧ i < 16 * sel' + 16) := by omega
    rw [if_neg h', if_pos h, if_pos h]
  · rw [if_neg h, if_neg h]

/-! ## Two insertions into one register -/

theorem writeMm_writeMm (s : State) (n : RegNum) (u v : Qword) : writeMm (writeMm s n u) n v = writeMm s n v := by
  simp [writeMm]

theorem writeXmm_writeXmm (s : State) (n : RegNum) (u v : Oword) : writeXmm (writeXmm s n u) n v = writeXmm s n v := by
  simp [writeXmm]

theorem insertSource_advancePc (i : Instr) (s : State) (len : Nat) (v : Dword) :
    insertSource i (advancePc s len) v = advancePc (insertSource i s v) len := by
  cases i <;> rfl

theorem insertSource_takeFree (i : Instr) (s : State) (n : Nat) (v : Dword) :
    insertSource i (takeFree s n) v = takeFree (insertSource i s v) n := by
  cases i <;> rfl

theorem advancePc_comm (s : State) (m n : Nat) : advancePc (advancePc s m) n = advancePc (advancePc s n) m := by
  simp only [advancePc, Nat.add_right_comm s.pc m n]

/-- Two 64-bit insertions into one register are one write of both words. -/
theorem insertSource_insertSource_of_mmx {i j : Instr} (hi : i.form = .mmx) (hj : j.form = .mmx) (hd : i.dest = j.dest)
    (s : State) (u v : Dword) :
    insertSource j (insertSource i s u) v =
      writeMm s j.dest (insertWord (insertWord (readMm s j.dest) u i.word) v j.word) := by
  rw [insertSource_of_mmx hj, insertSource_of_mmx hi, hd, writeMm_writeMm, readMm_writeMm, if_pos rfl]

/-- Two 128-bit insertions into one register are one write of both words. -/
theorem insertSource_insertSource_of_xmm {i j : Instr} (hi : i.form = .xmm) (hj : j.form = .xmm) (hd : i.dest = j.dest)
    (s : State) (u v : Dword) :
    insertSource j (insertSource i s u) v =
      writeXmm s j.dest (insertWord (insertWord (readXmm s j.dest) u i.word) v j.word) := by
  rw [insertSource_of_xmm hj, insertSource_of_xmm hi, hd, writeXmm_writeXmm, readXmm_writeXmm, if_pos rfl]

/-- Of two insertions into one word of one register the later is as if alone. -/
theorem insertSource_insertSource {i j : Instr} (hf : i.form = j.form) (hd : i.dest = j.dest) (hw : i.word = j.word)
    (s : State) (u v : Dword) : insertSource j (insertSource i s u) v = insertSource j s v := by
  cases hj : j.form
  · rw [insertSource_insertSource_of_mmx (hf.trans hj) hj hd, hw, insertWord_insertWord, insertSource_of_mmx hj]
  · rw [insertSource_insertSource_of_xmm (hf.trans hj) hj hd, hw, insertWord_insertWord, insertSource_of_xmm hj]

/-- Insertions into different words of one register commute. -/
theorem insertSource_comm {i j : Instr} (hf : i.form = j.form) (hd : i.dest = j.dest) (hw : i.word ≠ j.word)
    (s : State) (u v : Dword) : insertSource j (insertSource i s u) v = insertSource i (insertSource j s v) u := by
  cases hj : j.form
  · rw [insertSource_insertSource_of_mmx (hf.trans hj) hj hd, insertSource_insertSource_of_mmx hj (hf.trans hj) hd.symm,
      insertWord_comm _ _ _ hw, hd]
  · rw [insertSource_insertSource_of_xmm (hf.trans hj) hj hd, insertSource_insertSource_of_xmm hj (hf.trans hj) hd.symm,
      insertWord_comm _ _ _ hw, hd]

/-! ## The masks -/

theorem getLsbD_mask {w i : Nat} (hi : i < w) (k : Nat) :
    (mask w k).getLsbD i = decide (16 * k ≤ i ∧ i < 16 * k + 16) := by
  by_cases h : 16 * k ≤ i ∧ i < 16 * k + 16
  · rw [getLsbD_mask_word hi h.1 h.2, decide_eq_true h]
  · rw [getLsbD_mask_other h, decide_eq_false h]

end Sys2Proof.Machine
end

section
/-! # The statements of the PINSRW family (spec/40_pinsrw.md) -/

namespace Sys2Proof.Machine

open Sys2Proof

/-- Settles O12: every lane in range ends inside the destination. -/
theorem insertWordActsOnOneLane : Obligations.InsertWordActsOnOneLane :=
  ⟨fun dest source sel _ _ hk => lane_insertWord dest source sel (by omega),
    fun dest source sel _ _ hk => lane_insertWord dest source sel (by omega)⟩

/-- Settles O13. -/
theorem mmR32InsertsTheLowWord : Obligations.MmR32InsertsTheLowWord := fun s d r imm hstate =>
  ⟨_, exec_register_of_stateReady hstate d r imm,
    mmWordSet_insertSource (i := .pinsrwMmR32 d r imm) rfl s 0 _ (readR32 s r),
    effects_insertSource (.pinsrwMmR32 d r imm) s 0 (readR32 s r)⟩

/-- Settles O14: the quiescent read takes no free value, and the insertion is that of any source. -/
theorem mmM16InsertsTheMemoryWord : Obligations.MmM16InsertsTheMemoryWord := by
  intro s d m imm pa0 pa1 hstate hoperand hq
  obtain ⟨v, hv, hexec⟩ := exec_of_memoryBytes (i := .pinsrwMmM16 d m imm) rfl hstate hoperand hq
  exact ⟨_, hexec, hv ▸ mmWordSet_insertSource rfl s 0 _ v, effects_insertSource _ s 0 v⟩

/-- Settles O15. -/
theorem xmmR32InsertsTheLowWord : Obligations.XmmR32InsertsTheLowWord := fun s d r imm hstate =>
  ⟨_, exec_register_of_stateReady hstate d r imm,
    xmmWordSet_insertSource (i := .pinsrwXmmR32 d r imm) rfl s 0 _ (readR32 s r),
    effects_insertSource (.pinsrwXmmR32 d r imm) s 0 (readR32 s r)⟩

/-- Settles O16: as for the 64-bit form. -/
theorem xmmM16InsertsTheMemoryWord : Obligations.XmmM16InsertsTheMemoryWord := by
  intro s d m imm pa0 pa1 hstate hoperand hq
  obtain ⟨v, hv, hexec⟩ := exec_of_memoryBytes (i := .pinsrwXmmM16 d m imm) rfl hstate hoperand hq
  exact ⟨_, hexec, hv ▸ xmmWordSet_insertSource rfl s 0 _ v, effects_insertSource _ s 0 v⟩

/-- Settles O20: either instruction inserts, after the other, the value it inserts in `s`. -/
theorem insertsIntoDifferentWordsCommute : Obligations.InsertsIntoDifferentWordsCommute := by
  intro i j s si sj hform hdest hword hsource hi hj
  obtain ⟨u, hu⟩ := exec_of_sameLaunch (hsource.imp_left And.left) hi
  obtain ⟨v, hv⟩ := exec_of_sameLaunch (hsource.imp_left And.right) hj
  refine ⟨_, hv si (exec_sameLaunch hi), ?_⟩
  rw [hu sj (exec_sameLaunch hj)]
  rw [hu s (.refl s)] at hi
  rw [hv s (.refl s)] at hj
  cases hi
  cases hj
  rw [insertSource_advancePc, insertSource_advancePc, insertSource_comm hform hdest hword, advancePc_comm]

/-- Settles O21: the later instruction inserts the value it inserts in `s`, over whatever the earlier one inserted. -/
theorem laterInsertIntoTheSameWordWins : Obligations.LaterInsertIntoTheSameWordWins := by
  intro i j s si sj hform hdest hword hsource hi hj
  obtain ⟨v, hv⟩ := exec_of_sameLaunch hsource hj
  have hafter := hv si (exec_sameLaunch hi)
  rw [hv s (.refl s)] at hj
  cases hj
  obtain ⟨-, u, n, -, rfl, -⟩ := exec_eq_next hi
  rw [insertSource_advancePc, insertSource_insertSource hform hdest hword, insertSource_takeFree j] at hafter
  exact ⟨_, hafter, rfl, rfl, by simp⟩

/-- Settles O11. -/
theorem masksAreTheSourcesConstants : Obligations.MasksAreTheSourcesConstants :=
  ⟨by decide, by decide, fun _ k _ hi => getLsbD_mask hi k⟩

/-- Settles O42: the fetch answers the instruction that the bytes at `pc` decode to. -/
theorem stepRunsTheDecodedInstruction : Obligations.StepRunsTheDecodedInstruction := by
  intro s i rest hlaunch hdecode
  rw [step, fetch_eq_ok.mpr ⟨hlaunch, rest, hdecode⟩]

end Sys2Proof.Machine
end

section
/-! # What is raised, and what the state checks do not see (spec/60_exceptions.md R59 to R71) -/

namespace Sys2Proof.Machine

open Sys2Proof

/-! ## The state checks -/

theorem udCondition_eq_true {f : Form} {s : State} : udCondition f s = true ↔ UdApplies f s := by
  cases f <;> simp [udCondition, UdApplies]

theorem mfCondition_eq_true {f : Form} {s : State} : mfCondition f s = true ↔ f = .mmx ∧ s.x87Pending = true := by
  cases f <;> simp [mfCondition]

/-- The state exceptions that apply, each by its condition as R60 to R64 give it. -/
theorem mem_stateExceptions_iff {f : Form} {s : State} {e : Exception} :
    e ∈ stateExceptions f s ↔
      (e = .ud ∧ UdApplies f s) ∨ (e = .nm ∧ s.cr0TS = true) ∨ (e = .mf ∧ f = .mmx ∧ s.x87Pending = true) := by
  rw [mem_stateExceptions, udCondition_eq_true, mfCondition_eq_true, nmCondition]

/-- Where an exception of the state checks applies, the state rows of R78 do not all hold. -/
theorem not_stateReady_of_mem {f : Form} {s : State} {e : Exception} (h : e ∈ stateExceptions f s) : ¬ StateReady f s := by
  intro hready
  rw [stateExceptions_eq_nil.mpr hready] at h
  cases h

/-- Where they do not all hold, an exception of the state checks that applies is what the instruction raises (R71). -/
theorem raises_of_not_stateReady {i : Instr} {s : State} (h : ¬ StateReady i.form s) :
    (UdApplies i.form s ∧ Raises i s .ud none) ∨ (s.cr0TS = true ∧ Raises i s .nm none) ∨
      (i.form = .mmx ∧ s.x87Pending = true ∧ Raises i s .mf none) := by
  obtain ⟨e, he, hchecks⟩ := stateChecks_of_not_ready h
  have hraises : Raises i s e none := by
    rw [Raises, exec_eq, hchecks]
    rfl
  obtain ⟨rfl, hud⟩ | ⟨rfl, hts⟩ | ⟨rfl, hform, hx87⟩ := mem_stateExceptions_iff.mp he
  · exact .inl ⟨hud, hraises⟩
  · exact .inr (.inl ⟨hts, hraises⟩)
  · exact .inr (.inr ⟨hform, hx87, hraises⟩)

theorem raises_of_udApplies {i : Instr} {s : State} (h : UdApplies i.form s) :
    Raises i s .ud none ∨ (s.cr0TS = true ∧ Raises i s .nm none) ∨
      (i.form = .mmx ∧ s.x87Pending = true ∧ Raises i s .mf none) :=
  (raises_of_not_stateReady (not_stateReady_of_mem (mem_stateExceptions_iff.mpr (.inl ⟨rfl, h⟩)))).imp_left And.right

/-- No #MF is among the alternatives of a 128-bit form (R64). -/
theorem raises_of_udApplies_of_xmm {i : Instr} {s : State} (hf : i.form = .xmm) (h : UdApplies i.form s) :
    Raises i s .ud none ∨ (s.cr0TS = true ∧ Raises i s .nm none) := by
  obtain hud | hnm | ⟨hmmx, -⟩ := raises_of_udApplies h
  · exact .inl hud
  · exact .inr hnm
  · rw [hf] at hmmx
    cases hmmx

/-! ## Bits that one form does not test -/

/-- A change of the four bits that one of the two forms tests and the other does not (R60 to R62, R64). -/
def mapFormBits (osfxsr sse2 hasMm pending : Bool → Bool) (s : State) : State :=
  { s with
    cr4OSFXSR := osfxsr s.cr4OSFXSR
    cpuidSSE2 := sse2 s.cpuidSSE2
    hasPinsrwMM := hasMm s.hasPinsrwMM
    x87Pending := pending s.x87Pending }

/-- Such a change that the state checks do not see carries over to the outcome: the read and the insertion see none of the bits. -/
theorem exec_mapFormBits {osfxsr sse2 hasMm pending : Bool → Bool} {i : Instr} {s : State}
    (hchecks : stateChecks i.form (mapFormBits osfxsr sse2 hasMm pending s) = stateChecks i.form s) :
    exec i (mapFormBits osfxsr sse2 hasMm pending s) = mapNext (mapFormBits osfxsr sse2 hasMm pending) (exec i s) := by
  refine exec_commutes hchecks rfl (fun m _ => ?_) fun u v => ?_
  · rw [readOperand, operandAddress_congr rfl]
    refine memRead_commutes rfl rfl rfl rfl fun pa0 pa1 _ => ?_
    cases hq : s.premises.memoryQuiescent <;> simp [loadWord, hq, takeFree, mapFormBits]
  · cases i <;> rfl

/-- A 64-bit form tests neither OSFXSR nor the SSE2 flag. -/
theorem exec_mapFormBits_of_mmx {i : Instr} (hf : i.form = .mmx) (osfxsr sse2 : Bool → Bool) (s : State) :
    exec i (mapFormBits osfxsr sse2 id id s) = mapNext (mapFormBits osfxsr sse2 id id) (exec i s) :=
  exec_mapFormBits (by rw [hf]; rfl)

/-- A 128-bit form tests neither whether the part has the 64-bit form nor the pending x87 exception. -/
theorem exec_mapFormBits_of_xmm {i : Instr} (hf : i.form = .xmm) (hasMm pending : Bool → Bool) (s : State) :
    exec i (mapFormBits id id hasMm pending s) = mapNext (mapFormBits id id hasMm pending) (exec i s) :=
  exec_mapFormBits (by rw [hf]; rfl)

/-! ## The limit test -/

/-- Which exception the limit test raises, and where: by the segment in protected mode, #GP in the other modes (R65, R66, R68). -/
theorem limitException_eq_some {s : State} {seg : Seg} {ea : Nat} {e : Exception} :
    limitException s seg ea = some e ↔
      (s.mode = .protectedMode ∧ segLimitOK s seg ea 2 = false ∧ (seg = .ss ∧ e = .ss ∨ seg ≠ .ss ∧ e = .gp)) ∨
        (s.mode ≠ .protectedMode ∧ 0xFFFF < ea + 1 ∧ e = .gp) := by
  have hany : ea > 0xFFFF ∨ ea + 1 > 0xFFFF ↔ 0xFFFF < ea + 1 := by omega
  unfold limitException
  simp only [hany]
  cases s.mode with
  | protectedMode =>
    cases segLimitOK s seg ea 2 <;> by_cases hss : seg = .ss <;> simp [hss, eq_comm (a := e)]
  | realAddress => simp [eq_comm (a := e)]
  | virtual8086 => simp [eq_comm (a := e)]

/-- Where the limit test raises nothing, the limit rows of R78 hold. -/
theorem limitReady_of_limitException_eq_none {s : State} {seg : Seg} {ea : Nat} (h : limitException s seg ea = none) :
    LimitReady s seg ea := by
  have hnone : ∀ e, limitException s seg ea ≠ some e := by simp [h]
  refine ⟨fun hmode => ?_, fun hmode => ?_⟩ <;> by_contra hlimit
  · rw [Bool.not_eq_true] at hlimit
    by_cases hss : seg = .ss
    · exact hnone .ss (limitException_eq_some.mpr (.inl ⟨hmode, hlimit, .inl ⟨hss, rfl⟩⟩))
    · exact hnone .gp (limitException_eq_some.mpr (.inl ⟨hmode, hlimit, .inr ⟨hss, rfl⟩⟩))
  · exact hnone .gp (limitException_eq_some.mpr (.inr ⟨hmode, by omega, rfl⟩))

/-- An effective address of 16-bit addressing. -/
theorem operandAddress_m16_lt (s : State) (m : Mem16) : (operandAddress s (.m16 m)).2 < 0x10000 :=
  (address16 s m).2.isLt

/-! ## Translation in real-address mode -/

/-- No rule that applies in real-address mode is one of a page fault (R34). -/
theorem target_of_applies_realAddress {r : TranslationRule} {seg : Seg} {ea : Nat}
    (h : r.applies .realAddress seg ea = true) (code : FaultCode) : r.target ≠ .pageFault code := by
  intro htarget
  simp [TranslationRule.applies, htarget] at h

theorem translateBy_realAddress (seg : Seg) (ea : Nat) (rules : List TranslationRule) (code : FaultCode) :
    translateBy .realAddress seg ea rules ≠ .pageFault code := by
  induction rules with
  | nil => simp [translateBy]
  | cons r rest ih =>
    unfold translateBy
    split
    case isTrue happlies =>
      have htarget := target_of_applies_realAddress happlies
      cases ht : r.target with
      | physical pa0 pa1 => simp [Target.shift]
      | pageFault c => exact absurd ht (htarget c)
      | device => simp [Target.shift]
    case isFalse => exact ih

/-! ## Raising by the memory read -/

/-- A fault of the read is what the memory form raises, where the state rows of R78 hold. -/
theorem raises_of_memRead {i : Instr} {s : State} {m : MemOperand} {e : Exception} {code : Option FaultCode}
    (hm : i.memOperand = some m) (hs : StateReady i.form s)
    (hread : memRead s (operandAddress s m).1 (operandAddress s m).2 = .fault (.exception e code s.pc)) :
    Raises i s e code := by
  rw [Raises, exec_memory_of_stateReady hm hs, readOperand, hread]
  rfl

/-- What the limit test raises, with error code 0 (R65, R66, R68). -/
theorem raises_of_limitException {i : Instr} {s : State} {m : MemOperand} {e : Exception} (hm : i.memOperand = some m)
    (hs : StateReady i.form s) (hp : PremisesReady s (operandAddress s m).1)
    (hl : limitException s (operandAddress s m).1 (operandAddress s m).2 = some e) : Raises i s e (some 0) :=
  raises_of_memRead hm hs (by simp [memRead, operandRefusal_of_ready hp, hl, raise])

/-- Outside protected mode, a byte of the operand above FFFFH raises #GP(0), whatever the segment (R66, R68). -/
theorem raises_gp_of_not_protectedMode {i : Instr} {s : State} {m : MemOperand} (hm : i.memOperand = some m)
    (hs : StateReady i.form s) (hp : PremisesReady s (operandAddress s m).1) (hmode : s.mode ≠ .protectedMode)
    (hea : 0xFFFF < (operandAddress s m).2 + 1) : Raises i s .gp (some 0) :=
  raises_of_limitException hm hs hp (limitException_eq_some.mpr (.inr ⟨hmode, hea, rfl⟩))

/-- Everything the read can raise: what the limit test raises, with code 0, or inside the limit Translate's page fault. -/
theorem memRead_eq_fault {s : State} {seg : Seg} {ea pc : Nat} {e : Exception} {code : Option FaultCode}
    (h : memRead s seg ea = .fault (.exception e code pc)) :
    (limitException s seg ea = some e ∧ code = some 0) ∨
      (LimitReady s seg ea ∧ e = .pf ∧ ∃ c, code = some c ∧ translateOperand s seg ea = .pageFault c) := by
  rcases memRead_cases s seg ea with
    ⟨r, -, h'⟩ | ⟨-, e', hl, h'⟩ | ⟨-, hl, ⟨c, ht, h'⟩ | ⟨-, h'⟩ | ⟨pa0, pa1, -, h'⟩⟩ <;> rw [h'] at h <;> cases h
  · exact .inl ⟨hl, rfl⟩
  · exact .inr ⟨limitReady_of_limitException_eq_none hl, rfl, c, rfl, ht⟩

/-- Everything an instruction can raise: an applicable exception of the state checks; or, where their rows hold, an exception
of the read of its operand. -/
theorem raises_cases {i : Instr} {s : State} {e : Exception} {code : Option FaultCode} (h : Raises i s e code) :
    (e ∈ stateExceptions i.form s ∧ code = none) ∨
      (StateReady i.form s ∧ ∃ m, i.memOperand = some m ∧
        memRead s (operandAddress s m).1 (operandAddress s m).2 = .fault (.exception e code s.pc)) := by
  obtain ⟨-, hnil⟩ | ⟨e', he', hchecks⟩ := stateChecks_cases i.form s
  · have hs := stateExceptions_eq_nil.mp hnil
    cases hm : i.memOperand with
    | none =>
      have hmem := raises_of_no_memOperand hm h
      rw [hnil] at hmem
      cases hmem
    | some m =>
      rw [Raises, exec_memory_of_stateReady hm hs] at h
      obtain hread | ⟨ws, -, hnext⟩ := andThen_eq_fault h
      · exact .inr ⟨hs, m, rfl, hread⟩
      · cases hnext
  · rw [Raises, exec_eq, hchecks] at h
    cases h
    exact .inl ⟨he', rfl⟩

end Sys2Proof.Machine
end

section
/-! # The statements of the exceptions family (spec/60_exceptions.md) -/

namespace Sys2Proof.Machine

open Sys2Proof

/-- Settles O34: the state checks are the first step of every form. -/
theorem stateChecksComeBeforeMemory : Obligations.StateChecksComeBeforeMemory := fun _ _ h => raises_of_not_stateReady h

/-- Settles O29: either premise is a condition of #UD. -/
theorem emulationBitRaisesUd : Obligations.EmulationBitRaisesUd := fun _ _ h =>
  raises_of_udApplies (h.imp_right .inl)

/-- Settles O30: OSFXSR is in the condition of #UD of the 128-bit forms alone. -/
theorem osfxsrClearRaisesUdIn128BitForms : Obligations.OsfxsrClearRaisesUdIn128BitForms :=
  ⟨fun _ _ hf h => raises_of_udApplies_of_xmm hf (.inr (.inr ⟨hf, .inl h⟩)),
    fun _ s b hf => exec_mapFormBits_of_mmx hf (fun _ => b) id s⟩

/-- Settles O31: so is the SSE2 flag. -/
theorem sse2ClearRaisesUdIn128BitForms : Obligations.Sse2ClearRaisesUdIn128BitForms :=
  ⟨fun _ _ hf h => raises_of_udApplies_of_xmm hf (.inr (.inr ⟨hf, .inr h⟩)),
    fun _ s b hf => exec_mapFormBits_of_mmx hf id (fun _ => b) s⟩

/-- Settles O32. -/
theorem taskSwitchedBitRaisesNm : Obligations.TaskSwitchedBitRaisesNm := by
  intro i s hts
  have hnm : .nm ∈ stateExceptions i.form s := mem_stateExceptions_iff.mpr (.inr (.inl ⟨rfl, hts⟩))
  obtain hud | ⟨-, hraises⟩ | hmf := raises_of_not_stateReady (not_stateReady_of_mem hnm)
  · exact .inr (.inl hud)
  · exact .inl hraises
  · exact .inr (.inr hmf)

/-- Settles O33: the pending exception is tested by the 64-bit forms alone. -/
theorem pendingX87RaisesMfIn64BitForms : Obligations.PendingX87RaisesMfIn64BitForms := by
  refine ⟨fun i s hf hx87 => ?_, fun i s b c hf => exec_mapFormBits_of_xmm hf (fun _ => c) (fun _ => b) s⟩
  have hmf : .mf ∈ stateExceptions i.form s := mem_stateExceptions_iff.mpr (.inr (.inr ⟨rfl, hf, hx87⟩))
  obtain hud | hnm | ⟨-, -, hraises⟩ := raises_of_not_stateReady (not_stateReady_of_mem hmf)
  · exact .inr (.inr (hf ▸ hud))
  · exact .inr (.inl hnm)
  · exact .inl hraises

/-- Settles O35: a reported exception is one of the state checks, or of the limit test, or Translate's page fault, in that order. -/
theorem reportedExceptionApplies : Obligations.ReportedExceptionApplies := by
  intro i s e code h
  obtain ⟨he, rfl⟩ | ⟨hs, m, hm, hread⟩ := raises_cases h
  · obtain ⟨rfl, hud⟩ | ⟨rfl, hts⟩ | ⟨rfl, hform, hx87⟩ := mem_stateExceptions_iff.mp he
    · exact ⟨rfl, hud⟩
    · exact ⟨rfl, hts⟩
    · exact ⟨rfl, hform, hx87⟩
  · obtain ⟨hlimit, rfl⟩ | ⟨hlimit, rfl, c, rfl, ht⟩ := memRead_eq_fault hread
    · obtain ⟨hmode, hbad, ⟨hseg, rfl⟩ | ⟨hseg, rfl⟩⟩ | ⟨hmode, hea, rfl⟩ := limitException_eq_some.mp hlimit
      · exact ⟨rfl, hs, hmode, m, hm, hseg, hseg ▸ hbad⟩
      · exact ⟨rfl, hs, m, hm, .inl ⟨hmode, hseg, hbad⟩⟩
      · exact ⟨rfl, hs, m, hm, .inr ⟨hmode, hea⟩⟩
    · refine ⟨hs, fun hmode => ?_, m, c, hm, rfl, hlimit, ht⟩
      rw [translateOperand, hmode] at ht
      exact translateBy_realAddress _ _ _ _ ht

/-- Settles O36: none of the five segments is SS. -/
theorem limitViolationRaisesGpInProtectedMode : Obligations.LimitViolationRaisesGpInProtectedMode := by
  intro i s m seg ea hm haddr hs hp hmode hseg hbad
  have hss : seg ≠ .ss := by
    rintro rfl
    simp at hseg
  refine raises_of_limitException hm hs (by rwa [haddr]) ?_
  rw [haddr]
  exact limitException_eq_some.mpr (.inl ⟨hmode, hbad, .inr ⟨hss, rfl⟩⟩)

/-- Settles O37: in the other modes a reported #SS would not apply. -/
theorem ssLimitViolationRaisesSsInProtectedModeOnly : Obligations.SsLimitViolationRaisesSsInProtectedModeOnly := by
  refine ⟨fun i s m ea hm haddr hs hp hmode hbad => ?_, fun i s code hmode h => ?_,
    fun i s m seg ea hm haddr hs hp hmode hea => ?_⟩
  · refine raises_of_limitException hm hs (by rwa [haddr]) ?_
    rw [haddr]
    exact limitException_eq_some.mpr (.inl ⟨hmode, hbad, .inl ⟨rfl, rfl⟩⟩)
  · obtain ⟨-, -, hprotected, -⟩ := reportedExceptionApplies i s .ss code h
    exact hmode hprotected
  · exact raises_gp_of_not_protectedMode hm hs (by rwa [haddr]) hmode (by rwa [haddr])

/-- Settles O38: a 16-bit effective address is at most FFFFH, so the last byte alone can lie above it. -/
theorem operandOutsideFfffRaisesGpOutsideProtectedMode : Obligations.OperandOutsideFfffRaisesGpOutsideProtectedMode := by
  refine ⟨fun i s m hm hs hp hmode hea => ?_, fun s m => ?_⟩
  · exact raises_gp_of_not_protectedMode hm hs hp (by obtain h | h := hmode <;> simp [h]) (by omega)
  · have hlt := operandAddress_m16_lt s m
    omega

/-- Settles O39: in real-address mode a reported #PF would not apply. -/
theorem pageFaultRaisesPfOutsideRealAddressMode : Obligations.PageFaultRaisesPfOutsideRealAddressMode := by
  refine ⟨fun i s m code hm hs hp hl _ ht => ?_, fun i s code hmode h => ?_⟩
  · exact raises_of_memRead hm hs (by simp [memRead, operandRefusal_of_ready hp, limitException_of_ready hl, ht, raise])
  · obtain ⟨-, hreal, -⟩ := reportedExceptionApplies i s .pf code h
    exact hreal hmode

end Sys2Proof.Machine
end

section
/-! # What a whole run keeps, and where a step or a run begins and stops (spec/70_reset_and_hazards.md R77 to R80) -/

namespace Sys2Proof.Machine

open Sys2Proof

/-! ## Runs of one launch -/

theorem SameLaunch.trans {s t u : State} (hst : SameLaunch s t) (htu : SameLaunch t u) : SameLaunch s u := by
  unfold SameLaunch at *
  grind

theorem step_sameLaunch {s t : State} (h : step s = .next t) : SameLaunch s t := by
  obtain ⟨i, -, -, -, hexec⟩ := step_eq_next.mp h
  exact exec_sameLaunch hexec

theorem run_sameLaunch {k : Nat} {s t : State} (h : Host.Core.run Sys2Proof.core k s = .next t) : SameLaunch s t := by
  induction k generalizing s with
  | zero => cases h; exact SameLaunch.refl t
  | succ k ih =>
    obtain ⟨u, hstep, hrun⟩ := run_succ_eq_next.mp h
    exact (step_sameLaunch hstep).trans (ih hrun)

/-! ## Completion -/

theorem andThen_completes_iff {α β : Type} {x : Result α} {g : α → β} :
    (∃ b, (andThen x fun a => .next (g a)) = .next b) ↔ ∃ a, x = .next a := by
  cases x <;> simp [andThen]

theorem readOperand_completes_iff {s : State} {m : MemOperand} :
    (∃ ws, readOperand s m = .next ws) ↔ ∃ pa0 pa1, OperandReady s m pa0 pa1 := by
  constructor
  · rintro ⟨ws, hread⟩
    obtain ⟨pa0, pa1, hready, -⟩ := ready_of_readOperand hread
    exact ⟨pa0, pa1, hready⟩
  · rintro ⟨pa0, pa1, hready⟩
    exact ⟨_, readOperand_of_ready hready⟩

/-- A register is always read; a memory operand is read exactly when its conditions hold. -/
theorem readSource_completes_iff {i : Instr} {s : State} :
    (∃ vs, readSource s i = .next vs) ↔ ∀ m, i.memOperand = some m → ∃ pa0 pa1, OperandReady s m pa0 pa1 := by
  cases hm : i.memOperand with
  | none =>
    have hread : ∃ vs, readSource s i = .next vs := by cases i <;> cases hm <;> exact ⟨_, rfl⟩
    simp [hread]
  | some m =>
    rw [readSource_of_memOperand hm, andThen_completes_iff, readOperand_completes_iff]
    simp only [Option.some.injEq, forall_eq']

theorem exec_completes_iff {i : Instr} {s : State} :
    (∃ t, exec i s = .next t) ↔ StateReady i.form s ∧ ∃ vs, readSource s i = .next vs := by
  constructor
  · rintro ⟨t, hexec⟩
    obtain ⟨hchecks, v, n, hread, -, -⟩ := exec_eq_next hexec
    exact ⟨stateReady_of_stateChecks hchecks, _, hread⟩
  · rintro ⟨hstate, vs, hread⟩
    refine ⟨advancePc (insertSource i vs.2 vs.1) i.length, ?_⟩
    rw [exec_eq, stateChecks_of_ready hstate, andThen_next, hread, andThen_next]

/-! ## Steps that fetch no instruction -/

theorem step_of_fetch_eq_error {s : State} {r : Refusal} (h : fetch s = .error r) : step s = .refused r := by
  rw [step, h]

theorem fetch_of_finished {s : State} (hlaunch : LaunchReady s) (h : s.Finished) : fetch s = .error .endOfRun := by
  obtain ⟨htext, hinterrupts, halignment⟩ := hlaunch
  simp [fetch, htext, hinterrupts, halignment, h]

theorem fetch_of_decode_eq_error {s : State} {e : DecodeRefusal} (hlaunch : LaunchReady s) (h : ¬ s.Finished)
    (hdecode : decode s.addrSize (s.text.drop s.pc) = .error e) : fetch s = .error (.undecodable e) := by
  obtain ⟨htext, hinterrupts, halignment⟩ := hlaunch
  simp [fetch, htext, hinterrupts, halignment, h, hdecode]

/-! ## The state a launch begins in -/

@[simp] theorem readR32_reset (n : RegNum) : readR32 State.reset n = 0#32 := by simp [readR32, State.reset]

@[simp] theorem readMm_reset (n : RegNum) : readMm State.reset n = 0#64 := by simp [readMm, State.reset]

@[simp] theorem readXmm_reset (n : RegNum) : readXmm State.reset n = 0#128 := by simp [readXmm, State.reset]

theorem stateReady_reset (f : Form) : StateReady f State.reset := by cases f <;> decide

theorem segs_reset (seg : Seg) : State.reset.segs.get seg = .flat := by cases seg <;> rfl

end Sys2Proof.Machine
end

section
/-! # The statements of the reset and hazards family (spec/70_reset_and_hazards.md) -/

namespace Sys2Proof.Machine

open Sys2Proof

/-- Settles O49, by induction on the number of steps. -/
theorem runsKeepTheLaunchPremises : Obligations.RunsKeepTheLaunchPremises := fun _ _ _ h => run_sameLaunch h

/-- Settles O28: the steps of R51 complete exactly when the state checks and the reading of the source do. -/
theorem completesExactlyWhenReady : Obligations.CompletesExactlyWhenReady := by
  intro i s
  rw [exec_completes_iff, readSource_completes_iff, Ready]

/-- Settles O44: the refusals of the fetch, in the order of its tests. -/
theorem stepStopsWhereNoInstructionRuns : Obligations.StepStopsWhereNoInstructionRuns := by
  intro s
  refine ⟨fun htext => ?_, fun htext hinterrupts => ?_, fun htext hinterrupts halignment => ?_, fun hlaunch =>
    ⟨fun hfinished => ?_, fun hfinished e hdecode => ?_⟩⟩ <;> apply step_of_fetch_eq_error
  · simp [fetch, htext]
  · simp [fetch, htext, hinterrupts]
  · simp [fetch, htext, hinterrupts, halignment]
  · exact fetch_of_finished hlaunch hfinished
  · exact fetch_of_decode_eq_error hlaunch hfinished hdecode

/-- Settles O47. -/
theorem resetMeetsTheInvariant : Obligations.ResetMeetsTheInvariant := ⟨rfl, Nat.le_refl 0⟩

/-- Settles O48: registers, state rows and segments by their lemmas, every other value as `State.reset` writes it. -/
theorem resetIsTheLoggedLaunchState : Obligations.ResetIsTheLoggedLaunchState :=
  ⟨rfl, fun n => ⟨readR32_reset n, readMm_reset n, readXmm_reset n⟩, rfl, stateReady_reset .mmx, stateReady_reset .xmm,
    rfl, rfl, segs_reset, rfl, fun _ => rfl, rfl, rfl⟩

end Sys2Proof.Machine
end

section
/-! # The statement of the test vectors (spec/95_test_vectors.md) -/

namespace Sys2Proof.Machine

open Sys2Proof

/-- `decode_encode_nil` where the encoding is given as a list of bytes. -/
theorem decode_of_encode_eq {a : AddrSize} {i : Instr} {bs : List Byte} (henc : encode i = bs) (hwf : i.wellFormed = true)
    (hfits : i.fits a = true) : decode a bs = .ok (i, []) :=
  henc ▸ decode_encode_nil hwf hfits

/-- Settles O3: each word is, byte for byte, the encoding of the well-formed instruction it stands for. -/
theorem specWordsDecode : Obligations.SpecWordsDecode := by
  refine ⟨?_, ?_, ?_, ?_, ?_, ?_⟩ <;> exact decode_of_encode_eq rfl rfl rfl

end Sys2Proof.Machine
end
